-- ==== Sys2Proof/Word.lean ====
section
/-! DEFINITION. The word types of the ADIS16470 SPI access block (spec/00_scope.md R8, R13) and the
word a host presents on the command port (spec/30_encoding.md R92). -/

namespace Sys2Proof

/-- `u8`: one bus exchange (R8 `BYTE_BITS`). -/
abbrev Byte := BitVec 8

/-- `u16` and the pattern of an `s16` (R8 `REG_BITS`, R13). -/
abbrev Word16 := BitVec 16

/-- `u7`: a RegisterAddress (R8 `ADDR_BITS`). -/
abbrev Addr := BitVec 7

/-- `cmd_op[3:0]` (R11 `OPC_BITS`, R92). -/
abbrev Opcode := BitVec 4

/-- The ten words of a BurstSample (R8 `N_BURST_WORDS`), as patterns. -/
abbrev Words := Vector Word16 10

/-- What stands on the operand and opcode wires of the host port in a cycle with `cmd_valid = 1`
(R38, R92): there is no packed command word. -/
structure Port where
  op    : Opcode
  addr  : Addr
  data  : Word16
  words : Words
  deriving DecidableEq, Repr

/-- A port whose operand wires are all 0. -/
def Port.ofOpcode (op : Opcode) : Port :=
  { op := op, addr := 0, data := 0, words := Vector.replicate 10 0 }

end Sys2Proof
end

