-- ==== Sys2Proof/Config.lean ====
section
/-! DEFINITION. What an instance of the block fixes before reset (spec/00_scope.md R9 to R12,
spec/10_state.md R30) and the one free value of the model, a byte of the Bus Transport
(spec/20_memory.md R55). -/

namespace Sys2Proof

/-- `FLOAT_FMT` (R11, decision D18). -/
inductive FloatFmt where
  | binary32
  | binary64
  deriving DecidableEq, Repr

/-- `BIT_ORDER` (R10, R30): the source gives one order and no operation that changes it. -/
inductive BitOrder where
  | msbFirst
  deriving DecidableEq, Repr

/-- The constants of one model instance (R30): fixed before reset, changed by no command. -/
structure Instance where
  tStallUs : Nat
  sclkHz   : Nat
  bitOrder : BitOrder
  spiMode  : BitVec 2
  hasScl   : Bool
  floatFmt : FloatFmt
  deriving DecidableEq, Repr

/-- The instance `State.reset` stands for. `T_STALL_US`, `F_SCLK_HZ` and `BIT_ORDER` are the spec's
(R9, R10). DESIGN CHOICE (log 1): `SPI_MODE`, `HAS_SCL` and `FLOAT_FMT` are OPEN in the spec (R11);
unsafe if a claim rests on them, so none does: claims hold for every `cfg`. -/
def Config.instanceDefault : Instance :=
  { tStallUs := 20
    sclkHz   := 1000000
    bitOrder := .msbFirst
    spiMode  := 0
    hasScl   := true
    floatFmt := .binary64 }

/-- DESIGN CHOICE (log 4), safe: what the transport does with the `n`-th transfer that no listed
answer covers: some byte, or no answer (R55, R121). No body: nothing can be proved of its values. -/
opaque Config.freeAnswer : Nat → Option Byte

end Sys2Proof
end

