-- ==== Sys2Proof/Machine/Operands.lean ====
section
/-! DEFINITION. Every operand form: how addresses and data become the 16-bit words on the wire
(spec/30_encoding.md R82 to R88), and how received bytes become 16-bit words (R89, R90,
spec/10_state.md R27). -/

namespace Sys2Proof.Machine

/-- `v[15:8]` (R13). -/
def hiByte (v : Word16) : Byte := v.extractLsb' 8 8

/-- `v[7:0]` (R13). -/
def loByte (v : Word16) : Byte := v.extractLsb' 0 8

/-- `as_s16` (R13, R186): the two's-complement value of a pattern. -/
def asS16 (v : Word16) : Int := v.toInt

/-- `as_u16` (R13, R186): the pattern of a value. -/
def asU16 (v : Int) : Word16 := BitVec.ofInt 16 v

/-- The fill byte `0x00` (R8 `FILL`). -/
def fillByte : Byte := 0x00

/-- `FILL = 0x0000` (R83). -/
def fillWord : Word16 := 0x0000

/-- `TRIG = 0x6800` (R86). -/
def trigWord : Word16 := 0x6800

/-- `RQ(a) = zext_8(a) ∥ 0x00` (R87). -/
def rqWord (a : Addr) : Word16 := a.setWidth 8 ++ (0x00 : Byte)

/-- `addrWord(a)` (R88). -/
def addrWord (a : Addr) : Word16 := ((a.setWidth 16 &&& 0x007F) ||| 0x0080) <<< 8

/-- `lowWord(a, d)` (R88). -/
def lowWord (a : Addr) (d : Word16) : Word16 := addrWord a ||| (loByte d).setWidth 16

/-- `highWord(a, d)` (R88). -/
def highWord (a : Addr) (d : Word16) : Word16 :=
  addrWord a ||| 0x0100 ||| (hiByte d).setWidth 16

/-- A frame with `WR = 1` from its fields `ADDR` and `DATA` (R82): bit 15, bits 14:8, bits 7:0. -/
def wrWord (addr : Addr) (data : Byte) : Word16 := ((1 : BitVec 1) ++ addr) ++ data

/-- The field `ADDR`, bits 14:8 of a frame (R82). -/
def frameAddr (w : Word16) : Addr := w.extractLsb' 8 7

/-- The field `WR`, bit 15 of a frame (R82). -/
def frameWr (w : Word16) : Bool := w.getLsbD 15

/-- The pattern of two received bytes, the first in the high half: READ (R89) and each burst word
(R90) are assembled by this one formula. -/
def assembleWord (m l : Byte) : Word16 := (m.setWidth 16 <<< 8) ||| (l.setWidth 16 &&& 0x00FF)

/-- `W[k]` (R27), the word view of the receive buffer. -/
def wordView (rx : Vector Byte 20) (k : Fin 10) : Word16 :=
  assembleWord rx[2 * k.val] rx[2 * k.val + 1]

/-- The ten words `W[0..9]` (R27, R90), as patterns. -/
def burstPatterns (rx : Vector Byte 20) : Words := Vector.ofFn (wordView rx)

end Sys2Proof.Machine
end

