-- ==== Sys2Proof/Machine/Flags.lean ====
section
/-! DEFINITION. The one-bit results (spec/10_state.md R29) and the checksum they rest on
(spec/43_checksum.md): unit `CKV`, which has no state. -/

namespace Sys2Proof.Machine

/-- One turn of the loop of R181: both lanes of a word go into one 16-bit accumulator (R187). -/
def cksumAdd (s : Word16) (w : Word16) : Word16 :=
  s + (loByte w).setWidth 16 + (hiByte w).setWidth 16

/-- `cksum(w[0..8])` (R181): nine words, eighteen bytes, modulo 2^16. -/
def cksumNine (w : Vector Word16 9) : Word16 := w.toList.foldl cksumAdd 0x0000

/-- `w[0..8]` of a ten-word sample: the tenth word is never summed (R190). -/
def firstNine (w : Words) : Vector Word16 9 := Vector.ofFn fun k : Fin 9 => w[k.val]

/-- The checksum of a ten-word sample, its word 9 left out (R182, R190). -/
def cksum (w : Words) : Word16 := cksumNine (firstNine w)

/-- `valid(w[0..9])` (R184): the sum against the pattern of word 9. -/
def validBit (w : Words) : Bool := cksum w == w[9]

/-- `ck_ok` of a BURSTW response (R29, R170): `valid` of the ten words of the buffer. -/
def ckOk (rx : Vector Byte 20) : Bool := validBit (burstPatterns rx)

/-- `success` of a WRITE (R146): the constant 1. -/
def writeSuccess : Bool := true

end Sys2Proof.Machine
end

