-- ==== Sys2Proof/Machine/Memory.lean ====
section
/-! DEFINITION. Byte memory as a list of (address, byte) pairs in one canonical form. The block has no
memory of its own (spec/10_state.md R33); the one memory of the spec is `DEVSTUB.MEM[0..127]`
(spec/20_memory.md R68). -/

namespace Sys2Proof.Machine

/-- Sparse byte memory. -/
abbrev Memory := List Host.Cell

/-- What an unlisted address reads as: "all `0x00` at start" (R68). -/
def Memory.unlisted : Byte := 0x00

/-- How many byte locations there are (R50, R68). -/
def Memory.size : Nat := 128

/-- The byte at `a`. -/
def Memory.read : Memory → Nat → Byte
  | [], _ => Memory.unlisted
  | (k, v) :: m, a => if k = a then v else Memory.read m a

/-- Put an entry in front, unless it says what an unlisted address says anyway. -/
def Memory.cons (a : Nat) (b : Byte) (m : Memory) : Memory :=
  if b = Memory.unlisted then m else (a, b) :: m

/-- The memory with `b` at `a`; keeps the canonical form. -/
def Memory.write : Memory → Nat → Byte → Memory
  | [], a, b => Memory.cons a b []
  | (k, v) :: m, a, b =>
    if a < k then Memory.cons a b ((k, v) :: m)
    else if a = k then Memory.cons a b m
    else (k, v) :: Memory.write m a b

/-- The canonical form: addresses in range and strictly rising, and no entry that says what an
unlisted address says. -/
def Memory.wf : Memory → Bool
  | [] => true
  | (k, v) :: m => decide (k < Memory.size) && v != Memory.unlisted && m.all (fun c => k < c.1) && Memory.wf m

end Sys2Proof.Machine
end

