-- ==== Sys2Proof/Machine/DevStub.lean ====
section
/-! DEFINITION. `DEVSTUB` (spec/20_memory.md R68), the deterministic test fixture that may stand behind
the Bus Transport. It is not a description of the real device: a claim that rests on it says nothing
about the chip. -/

namespace Sys2Proof.Machine

/-- The state of `DEVSTUB` (R68). -/
structure DevStub where
  mem   : Memory
  latch : Word16
  src   : Vector Word16 9
  /-- the byte counter `n` of the transaction -/
  count : Nat
  /-- the held byte `ab` -/
  held  : Byte
  /-- the snapshot `cur` -/
  cur   : Word16
  burst : Bool
  deriving DecidableEq, Repr

/-- `DEVSTUB` at its start: `MEM` zero, `LATCH` zero, `SRC` as the test gives it (R68). DESIGN CHOICE
(log 5), safe: the four per-transaction items start at 0; `Sel` or the first byte sets each before it
is read. -/
def DevStub.start (src : Vector Word16 9) : DevStub :=
  { mem := [], latch := 0, src := src, count := 0, held := 0, cur := 0, burst := false }

/-- The `stream` of R68: the nine words and their checksum, each word high byte first. -/
def stubStream (src : Vector Word16 9) : List Byte :=
  (src.toList ++ [cksumNine src]).flatMap fun w => [hiByte w, loByte w]

/-- `on Sel` (R68). -/
def stubSel (d : DevStub) : DevStub := { d with count := 0, burst := false }

/-- The register a read-request frame latches: high byte at the odd address, low byte at the even
one (R68, R53). -/
def stubRegister (m : Memory) (a : Addr) : Word16 :=
  Memory.read m (a ||| 1).toNat ++ Memory.read m (a &&& 0x7E).toNat

/-- `on Xfer(o) returning i` (R68). -/
def stubXfer (o : Byte) (d : DevStub) : Byte × DevStub :=
  if d.burst then
    ((stubStream d.src).getD (d.count - 2) 0x00, { d with count := d.count + 1 })
  else if d.count % 2 = 0 then
    (hiByte d.latch, { d with cur := d.latch, held := o, count := d.count + 1 })
  else if d.held.getLsbD 7 then
    (loByte d.cur,
      { d with
        mem := Memory.write d.mem (d.held.setWidth 7).toNat o, latch := 0, count := d.count + 1 })
  else if d.count = 1 ∧ d.held = 0x68 ∧ o = 0x00 then
    (loByte d.cur, { d with burst := true, count := d.count + 1 })
  else
    (loByte d.cur,
      { d with latch := stubRegister d.mem (d.held.setWidth 7), count := d.count + 1 })

end Sys2Proof.Machine
end

