-- ==== Sys2Proof/Machine/Float.lean ====
section
/-! DEFINITION. The floating-point arithmetic of unit `SCL` (spec/44_scaling.md R200): exact
conversion, the rounded literal, one multiplication with one rounding, in binary32 or binary64.
PRESUMED (log 14), safe for every claim that names only `fmul`, `litOf` and `convOf`, unsafe for one
that rests on the rounding: round to nearest, ties to even (R200, decision D18, general knowledge G2). -/

namespace Sys2Proof.Machine

/-- A `FLOAT_FMT` value as its bits (R28 `Scaled`). -/
inductive FloatVal where
  | b32 (bits : BitVec 32)
  | b64 (bits : BitVec 64)
  deriving DecidableEq, Repr

/-- A finite number `(-1)^neg * mant * 2^exp`. -/
structure FloatNum where
  neg  : Bool
  mant : Nat
  exp  : Int
  deriving DecidableEq, Repr

/-- A positive decimal constant as the source prints it, `num / den`. -/
structure ScaleConst where
  num : Nat
  den : Nat
  deriving DecidableEq, Repr

/-- The significand's bits, the hidden one counted. -/
def fmtPrec : FloatFmt → Nat
  | .binary32 => 24
  | .binary64 => 53

/-- The exponent field's bits. -/
def fmtExpBits : FloatFmt → Nat
  | .binary32 => 8
  | .binary64 => 11

/-- The exponent of the least positive number of the format. -/
def fmtMinExp (f : FloatFmt) : Int := 3 - 2 ^ (fmtExpBits f - 1) - (fmtPrec f : Int)

/-- The greatest `e` with `2^e ≤ num / den`, for positive `num` and `den`. -/
def floorLog2 (num den : Nat) : Int :=
  let g : Int := (Nat.log2 num : Int) - (Nat.log2 den : Int)
  if den * 2 ^ g.toNat ≤ num * 2 ^ (-g).toNat then g else g - 1

/-- `num / den` to the nearest natural number, ties to the even one. -/
def divNearestEven (num den : Nat) : Nat :=
  let q := num / den
  let r := num % den
  if den < 2 * r ∨ (2 * r = den ∧ q % 2 = 1) then q + 1 else q

/-- The exponent of the last place a number `num / den` is rounded to. -/
def quantumExp (f : FloatFmt) (num den : Nat) : Int :=
  max (floorLog2 num den - ((fmtPrec f : Int) - 1)) (fmtMinExp f)

/-- One rounding of `(-1)^neg * num / den` to the format. -/
def roundTo (f : FloatFmt) (neg : Bool) (num den : Nat) : FloatNum :=
  if num = 0 then { neg := neg, mant := 0, exp := 0 }
  else
    let t := quantumExp f num den
    { neg := neg, mant := divNearestEven (num * 2 ^ (-t).toNat) (den * 2 ^ t.toNat), exp := t }

/-- `conv_FMT(r)` (R200): exact, both formats hold every `s16` value. -/
def convOf (r : Word16) : FloatNum := { neg := r.msb, mant := r.toInt.natAbs, exp := 0 }

/-- `lit_FMT(c)` (R200): the decimal constant rounded to the format. -/
def litOf (f : FloatFmt) (c : ScaleConst) : FloatNum := roundTo f false c.num c.den

/-- `fmul_FMT` (R200): the exact product, rounded once. -/
def fmul (f : FloatFmt) (x y : FloatNum) : FloatNum :=
  let e := x.exp + y.exp
  roundTo f (x.neg != y.neg) (x.mant * y.mant * 2 ^ e.toNat) (2 ^ (-e).toNat)

/-- The sign, exponent and fraction fields of a rounded number, as one natural number; a number past
the format's range gives the field pattern of an infinity. -/
def fieldsOf (f : FloatFmt) (x : FloatNum) : Nat :=
  let body :=
    if x.mant = 0 then 0 else (x.exp - fmtMinExp f).toNat * 2 ^ (fmtPrec f - 1) + x.mant
  let inf := (2 ^ fmtExpBits f - 1) * 2 ^ (fmtPrec f - 1)
  (if x.neg then 2 ^ (fmtExpBits f + fmtPrec f - 1) else 0) + min body inf

/-- The `FLOAT_FMT` value of a rounded number. -/
def encodeFloat (f : FloatFmt) (x : FloatNum) : FloatVal :=
  match f with
  | .binary32 => .b32 (BitVec.ofNat 32 (fieldsOf .binary32 x))
  | .binary64 => .b64 (BitVec.ofNat 64 (fieldsOf .binary64 x))

/-- `scale_c(r)` (R200). -/
def scaleBy (f : FloatFmt) (c : ScaleConst) (r : Word16) : FloatVal :=
  encodeFloat f (fmul f (convOf r) (litOf f c))

/-- 0.00125 g (R207). -/
def accelConst : ScaleConst := { num := 125, den := 100000 }

/-- 0.1 deg/s (R207). -/
def gyroConst : ScaleConst := { num := 1, den := 10 }

/-- 0.1 °C (R207). -/
def tempConst : ScaleConst := { num := 1, den := 10 }

/-- 0.061 deg (R207). -/
def dangConst : ScaleConst := { num := 61, den := 1000 }

/-- 0.01221 m/s (R207). -/
def dvelConst : ScaleConst := { num := 1221, den := 100000 }

end Sys2Proof.Machine
end

