-- ==== Sys2Proof/Syntax.lean ====
section
/-! DEFINITION. The instructions: one constructor per row of spec/opcode_table.json, the eleven
commands of the host port (spec/30_encoding.md R91) and the five wire frames (R83, R101). -/

namespace Sys2Proof

/-- One row of the opcode table. An `s16` operand is carried as its 16-bit pattern, which is what
stands on `cmd_data` and `cmd_words` (R93). A wire frame carries its fields `ADDR` and `DATA` (R82). -/
inductive Instr where
  /-- READ(a), R141. -/
  | read (a : Addr)
  /-- WRITE(a, d), R144. -/
  | write (a : Addr) (d : Word16)
  /-- BURSTW, R161. -/
  | burstw
  /-- BURSTB, R163. -/
  | burstb
  /-- CKSUM(w), R182: `w[9]` is on the port and not used. -/
  | cksum (w : Words)
  /-- VALID(w), R185. -/
  | valid (w : Words)
  /-- SCALE.ACCEL(r), R201. -/
  | scaleAccel (r : Word16)
  /-- SCALE.GYRO(r), R202. -/
  | scaleGyro (r : Word16)
  /-- SCALE.TEMP(r), R203. -/
  | scaleTemp (r : Word16)
  /-- SCALE.DANG(r), R204. -/
  | scaleDang (r : Word16)
  /-- SCALE.DVEL(r), R205. -/
  | scaleDvel (r : Word16)
  /-- WR.LO, R88: the first write frame. -/
  | wrLo (addr : Addr) (data : Byte)
  /-- WR.HI, R88: the second write frame; its `ADDR` is `a | 1`. -/
  | wrHi (addr : Addr) (data : Byte)
  /-- RQ, R87: the read-request frame. -/
  | rq (addr : Addr)
  /-- FILL, R83: the fill frame. -/
  | fill
  /-- TRIG, R86: the burst trigger frame. -/
  | trig
  deriving DecidableEq, Repr

end Sys2Proof
end

