-- ==== Sys2Proof/Machine/State.lean ====
section
/-! DEFINITION. The state of the block (spec/10_state.md R20 to R28), with the port and the
surroundings a deterministic step reads and writes (R16, R35, R38), the state after reset (R36), and
the reasons a step can stop. -/

namespace Sys2Proof.Machine

/-- `OP`: the bus command in flight (R22). -/
inductive BusOp where
  | read
  | write
  | burstw
  | burstb
  deriving DecidableEq, Repr

/-- The five micro-ops (spec/40_sequencer.md R111). -/
inductive MicroOp where
  /-- `SEL` -/
  | sel
  /-- `TX(o)`: the received byte is discarded. -/
  | tx (o : Byte)
  /-- `XR(o, k)`: the received byte goes to `RX[k]`. -/
  | xr (o : Byte) (k : Fin 20)
  /-- `DESEL` -/
  | desel
  /-- `STALL` -/
  | stall
  deriving DecidableEq, Repr

/-- The response of a command (R28). A value of type `s16` is the integer it stands for. -/
inductive Response where
  | rdVal (v : Int)
  | wrDone (success : Bool)
  | burstWords (w : Vector Int 10) (ckOk : Bool)
  | burstBytes (b : Vector Byte 20)
  | sum (s : Word16)
  | valid (ok : Bool)
  | scaled (f : FloatVal)
  deriving DecidableEq, Repr

/-- The events of a run (spec/00_scope.md R16). -/
inductive Event where
  | sel
  | desel
  /-- `Xfer(o, i)`: `o` sent, `i` received. -/
  | xfer (o i : Byte)
  | delay (us : Nat)
  | cmd (c : Instr)
  | rsp (r : Response)
  deriving DecidableEq, Repr

/-- What the host drives in one step: `rst`, and `cmd_valid` with the port's wires (R38). -/
structure HostIn where
  rst : Bool
  cmd : Option Port
  deriving DecidableEq, Repr

/-- A host that drives nothing. -/
def HostIn.quiet : HostIn := { rst := false, cmd := none }

/-- A host that presents a command. -/
def HostIn.present (p : Port) : HostIn := { rst := false, cmd := some p }

/-- The Bus Transport, with whatever is behind it (spec/20_memory.md R55). -/
inductive Transport where
  /-- Arbitrary answers: one entry per attempted transfer, `none` where the transport does not answer
  (R121); past the list, the free answer number `draws` and on (log 4). -/
  | script (answers : List (Option Byte)) (draws : Nat)
  /-- The test fixture `DEVSTUB` (R68), which always answers. -/
  | stub (dev : DevStub)
  deriving DecidableEq, Repr

/-- Reasons the model stops. The hardware has none (spec/60_exceptions.md R221): both name a state that
no run reaches, in which no step of R113 to R116 is enabled (log 9). -/
inductive Fault where
  /-- Raised by a micro-op whose condition on `SELD` (R111) fails: the sequencer in a state that no run
  reaches, or a wire frame executed with the bus deselected. Safe: the model stops where the spec
  enables no step. -/
  | notEnabled
  /-- Raised by the sequencer with `BUSY = 1` and `PH` past the end of the micro-program (R24). Safe: as
  above. -/
  | phaseOverrun
  deriving DecidableEq, Repr

/-- Reasons the model has no meaning for an instruction. -/
inductive Refusal where
  /-- Raised by an arm of `exec` for an instruction without a meaning; no arm of this model does. Safe:
  the model stops. -/
  | notModelled (mnemonic : String)
  deriving DecidableEq, Repr

/-- The machine. The first seven fields are the block's whole state (R20); `cfg` holds the instance's
constants (R30); `rsp` is the response port (R28, R38); `host` and `bus` are the surroundings (R35), as
lists of what is to come; `trace` is the run so far, oldest event first (R16). -/
structure State where
  /-- `BUSY` (R21) -/
  busy  : Bool
  /-- `OP` (R22) -/
  op    : BusOp
  /-- `A` (R23) -/
  a     : Addr
  /-- `D` (R23) -/
  d     : Word16
  /-- `PH` (R24) -/
  ph    : Nat
  /-- `SELD` (R25) -/
  seld  : Bool
  /-- `RX[0..19]` (R26) -/
  rx    : Vector Byte 20
  /-- `T_STALL_US` and the other constants (R30, R11) -/
  cfg   : Instance
  /-- the response port: `rsp_valid` is whether there is one (R28, R36) -/
  rsp   : Option Response
  /-- what the host drives in this step and in the steps after it; past the list, nothing (log 3) -/
  host  : List HostIn
  /-- the Bus Transport (R55) -/
  bus   : Transport
  /-- the events so far (R16) -/
  trace : List Event
  deriving DecidableEq, Repr

/-- The block after reset (R36), on the instance `Config.instanceDefault`, with nothing presented and
no answer listed. DESIGN CHOICE (log 2), unsafe: `OP`, `A`, `D` and `RX` are unspecified after reset;
the model names `READ` and zeros, which no command ever reads (R124). -/
def State.reset : State :=
  { busy  := false
    op    := .read
    a     := 0
    d     := 0
    ph    := 0
    seld  := false
    rx    := Vector.replicate 20 0
    cfg   := Config.instanceDefault
    rsp   := none
    host  := []
    bus   := .script [] 0
    trace := [] }

end Sys2Proof.Machine
end

