-- ==== Sys2Proof/WellFormed.lean ====
section
/-! DEFINITION. The checks an instruction meets before it can be presented to, or sent by, an
instance of the block. -/

namespace Sys2Proof

/-- The five SCALE commands (spec/44_scaling.md), present only with unit `SCL` (R12). -/
def Instr.needsScl : Instr → Bool
  | .scaleAccel _ | .scaleGyro _ | .scaleTemp _ | .scaleDang _ | .scaleDvel _ => true
  | .read _ | .write _ _ | .burstw | .burstb | .cksum _ | .valid _ => false
  | .wrLo _ _ | .wrHi _ _ | .rq _ | .fill | .trig => false

/-- The eleven commands of the host port (R91), as against the five wire frames. -/
def Instr.isCommand : Instr → Bool
  | .read _ | .write _ _ | .burstw | .burstb | .cksum _ | .valid _ => true
  | .scaleAccel _ | .scaleGyro _ | .scaleTemp _ | .scaleDang _ | .scaleDvel _ => true
  | .wrLo _ _ | .wrHi _ _ | .rq _ | .fill | .trig => false

/-- `highWord(a, d)` always has `ADDR = a | 1` (R88): a WR.HI frame with an even `ADDR` is none. -/
def Instr.frameAddrOk : Instr → Bool
  | .wrHi addr _ => addr.getLsbD 0
  | _ => true

/-- Well-formed on an instance with `HAS_SCL = hasScl`: a SCALE command needs the unit (R12, R97),
and a WR.HI frame has an odd `ADDR` (R88). Register addresses are NOT checked: the block does not
test `A[0]` (R56, decision D9). -/
def Instr.wf (hasScl : Bool) (i : Instr) : Bool :=
  (!i.needsScl || hasScl) && i.frameAddrOk

end Sys2Proof
end

