-- ==== Sys2Proof/Decode.lean ====
section
/-! DEFINITION. The two decoders and the encoder, from the encoding tables of spec/30_encoding.md: the
host port (R91 to R97), and the frames of a bus trace (R80 to R88, R100, R101). -/

namespace Sys2Proof

/-- Why a decoder gives no instruction. -/
inductive DecodeReject where
  /-- `cmd_op` 0x0, 0x7, 0xD, 0xE or 0xF (R97). -/
  | unassigned (op : Opcode)
  /-- `cmd_op` 0x8 to 0xC on an instance without unit `SCL` (R12, R97). -/
  | sclAbsent (op : Opcode)
  /-- A word the block sends at no such place (R83, R98). -/
  | notSent (w : Word16)
  /-- A write frame with an even `ADDR` where only `highWord` stands (R88). -/
  | evenHighAddr (w : Word16)
  /-- A transaction of another length than 2 or 22 bytes (R80). -/
  | badLength (n : Nat)
  /-- An event out of the order select, transfers, deselect (R80). -/
  | brokenTransaction
  deriving DecidableEq, Repr

/-- Where a frame stands: what tells the frames with a common pattern apart (R81, R83, R101). -/
inductive FramePos where
  /-- the first of a command's two 2-byte transactions -/
  | opening
  /-- the second of a command's two 2-byte transactions -/
  | closing
  /-- the first frame of a 22-byte transaction -/
  | burstFirst
  /-- a later frame of a 22-byte transaction -/
  | burstRest
  deriving DecidableEq, Repr

/-- What an instruction is written as: a word on the host port, or a frame at its place on the wire. -/
inductive Code where
  | command (p : Port)
  | frame (pos : FramePos) (w : Word16)
  deriving DecidableEq, Repr

/-- The opcode and its operands when the unit it belongs to is present (R92, R93). Wires a command does
not read are ignored (R96). -/
def decodeOpcode (p : Port) : Except DecodeReject Instr :=
  match p.op.toNat with
  | 0x1 => .ok (.read p.addr)
  | 0x2 => .ok (.write p.addr p.data)
  | 0x3 => .ok .burstw
  | 0x4 => .ok .burstb
  | 0x5 => .ok (.cksum p.words)
  | 0x6 => .ok (.valid p.words)
  | 0x8 => .ok (.scaleAccel p.data)
  | 0x9 => .ok (.scaleGyro p.data)
  | 0xA => .ok (.scaleTemp p.data)
  | 0xB => .ok (.scaleDang p.data)
  | 0xC => .ok (.scaleDvel p.data)
  | _ => .error (.unassigned p.op)

/-- The decoder of the host port (R92, R97). -/
def decodeCommand (hasScl : Bool) (p : Port) : Except DecodeReject Instr :=
  match decodeOpcode p with
  | .ok i => if i.needsScl && !hasScl then .error (.sclAbsent p.op) else .ok i
  | .error e => .error e

/-- The decoder of one frame at its place (R82, R83, R101). -/
def decodeFrame (pos : FramePos) (w : Word16) : Except DecodeReject Instr :=
  match pos with
  | .opening =>
    if Machine.frameWr w then .ok (.wrLo (Machine.frameAddr w) (Machine.loByte w))
    else if Machine.loByte w = 0x00 then .ok (.rq (Machine.frameAddr w))
    else .error (.notSent w)
  | .closing =>
    if Machine.frameWr w then
      if (Machine.frameAddr w).getLsbD 0 then
        .ok (.wrHi (Machine.frameAddr w) (Machine.loByte w))
      else .error (.evenHighAddr w)
    else if w = Machine.fillWord then .ok .fill
    else .error (.notSent w)
  | .burstFirst => if w = Machine.trigWord then .ok .trig else .error (.notSent w)
  | .burstRest => if w = Machine.fillWord then .ok .fill else .error (.notSent w)

/-- The place of a frame of which only the word is known. DESIGN CHOICE (log 12), safe: `TRIG` and `FILL`
go before the `RQ` pattern they are instances of (R100), and bit 8 tells the two write frames apart,
as it does for even addresses (R101). -/
def framePosGuess (w : Word16) : FramePos :=
  if w = Machine.trigWord then .burstFirst
  else if w = Machine.fillWord then .closing
  else if Machine.frameWr w && w.getLsbD 8 then .closing
  else .opening

/-- The decoder of a frame without its place. -/
def decodeWire (w : Word16) : Except DecodeReject Instr := decodeFrame (framePosGuess w) w

/-- The decoder. -/
def decode (hasScl : Bool) : Code → Except DecodeReject Instr
  | .command p => decodeCommand hasScl p
  | .frame pos w => decodeFrame pos w

/-- The encoder, from the tables of R92 (commands) and R82, R83 (frames). -/
def encode : Instr → Code
  | .read a => .command { Port.ofOpcode 0x1 with addr := a }
  | .write a d => .command { Port.ofOpcode 0x2 with addr := a, data := d }
  | .burstw => .command (Port.ofOpcode 0x3)
  | .burstb => .command (Port.ofOpcode 0x4)
  | .cksum w => .command { Port.ofOpcode 0x5 with words := w }
  | .valid w => .command { Port.ofOpcode 0x6 with words := w }
  | .scaleAccel r => .command { Port.ofOpcode 0x8 with data := r }
  | .scaleGyro r => .command { Port.ofOpcode 0x9 with data := r }
  | .scaleTemp r => .command { Port.ofOpcode 0xA with data := r }
  | .scaleDang r => .command { Port.ofOpcode 0xB with data := r }
  | .scaleDvel r => .command { Port.ofOpcode 0xC with data := r }
  | .wrLo addr data => .frame .opening (Machine.wrWord addr data)
  | .wrHi addr data => .frame .closing (Machine.wrWord addr data)
  | .rq addr => .frame .opening (Machine.rqWord addr)
  | .fill => .frame .closing Machine.fillWord
  | .trig => .frame .burstFirst Machine.trigWord

/-- The 16 bits of an instruction's code that the opcode table numbers: `cmd_op` in bits 3:0 of a
command, the frame itself (R92, R101). -/
def codeBits : Code → Word16
  | .command p => p.op.setWidth 16
  | .frame _ w => w

/-- The transactions of a bus trace, each as the list of bytes sent between a `Sel` and the next
`Desel` (R80); `sent` holds the open transaction's bytes, last first. -/
def transactions (sent : Option (List Byte)) :
    List Machine.Event → Except DecodeReject (List (List Byte))
  | [] => if sent.isNone then .ok [] else .error .brokenTransaction
  | .sel :: es => if sent.isNone then transactions (some []) es else .error .brokenTransaction
  | .xfer o _ :: es =>
    match sent with
    | some bs => transactions (some (o :: bs)) es
    | none => .error .brokenTransaction
  | .desel :: es =>
    match sent with
    | some bs => (transactions none es).map (bs.reverse :: ·)
    | none => .error .brokenTransaction
  | .delay _ :: es | .cmd _ :: es | .rsp _ :: es => transactions sent es

/-- The frames of a list of bytes, two bytes a frame, the high byte first (R85). -/
def framesOf : List Byte → List Word16
  | b0 :: b1 :: bs => Machine.assembleWord b0 b1 :: framesOf bs
  | _ => []

/-- The frames of a 22-byte transaction (R80, R81). -/
def decodeBurst : List Word16 → Except DecodeReject (List Instr)
  | [] => .error .brokenTransaction
  | w :: ws => do
    let i ← decodeFrame .burstFirst w
    let is ← ws.mapM (decodeFrame .burstRest)
    return i :: is

/-- The frames of a list of transactions; `second` says whether the next 2-byte transaction is a
command's second one (R80, R81, R101). DESIGN CHOICE (log 26), unsafe for a claim about such a trace: the spec
is silent on a trace in which a reset abandoned a command (R252). A 2-byte transaction left alone still makes the
next one a second one, until a burst or an error; one cut to another length than 2 or 22 rejects the trace. -/
def decodeTransactions (second : Bool) : List (List Byte) → Except DecodeReject (List Instr)
  | [] => .ok []
  | bs :: rest =>
    if bs.length = 22 then do
      let is ← decodeBurst (framesOf bs)
      let more ← decodeTransactions false rest
      return is ++ more
    else
      match bs with
      | [b0, b1] => do
        let i ← decodeFrame (if second then .closing else .opening) (Machine.assembleWord b0 b1)
        let more ← decodeTransactions (!second) rest
        return i :: more
      | _ => .error (.badLength bs.length)

/-- The decoder of bus traces (R81, R101), for the events of whole commands; of an abandoned command see log 26. -/
def decodeBusTrace (es : List Machine.Event) : Except DecodeReject (List Instr) := do
  let ts ← transactions none es
  decodeTransactions false ts

/-- What the decoders read from a word of the opcode table's numbering: a row of one byte is a command
with its opcode in bits 3:0 and zeros on the operand wires, a longer row is a frame. -/
def decodeTableWord (nbits w : Nat) : Option Instr :=
  if nbits ≤ 8 then (decodeCommand true (Port.ofOpcode (BitVec.ofNat 4 w))).toOption
  else (decodeWire (BitVec.ofNat 16 w)).toOption

end Sys2Proof
end

