-- ==== Sys2Proof/Machine/Ops.lean ====
section
/-! DEFINITION. The named operations of the block: the Bus Transport primitives (spec/00_scope.md R15),
the micro-ops and micro-programs (spec/40_sequencer.md R111, R112), acceptance, the sequencer's step and
the end of a command (R113 to R116), and reset (spec/70_reset_and_hazards.md R250).

There is no operation that takes an exception and none that returns from one: the block raises none, has
no vector, saves nothing and restores nothing (spec/60_exceptions.md R221, R228, R230). -/

namespace Sys2Proof.Machine

/-! ### The Bus Transport -/

/-- The transport after a `select()` (R15). -/
def Transport.select : Transport → Transport
  | .script answers draws => .script answers draws
  | .stub dev => .stub (stubSel dev)

/-- `transferByte(o)` (R15, R55): the answer, `none` if there is none yet (R121), and the transport
after the attempt. -/
def Transport.transfer (o : Byte) : Transport → Option Byte × Transport
  | .script (x :: xs) draws => (x, .script xs draws)
  | .script [] draws => (Config.freeAnswer draws, .script [] (draws + 1))
  | .stub dev => (some (stubXfer o dev).1, .stub (stubXfer o dev).2)

/-- The received bytes when every transfer of a list of micro-ops is answered at once, with the
transport after them; `none` if one is not. -/
def Transport.play : List MicroOp → Transport → Option (List Byte × Transport)
  | [], b => some ([], b)
  | .sel :: ms, b => Transport.play ms b.select
  | .tx o :: ms, b | .xr o _ :: ms, b =>
    match b.transfer o with
    | (some i, b') => (Transport.play ms b').map fun p => (i :: p.1, p.2)
    | (none, _) => none
  | .desel :: ms, b | .stall :: ms, b => Transport.play ms b

/-! ### Updates of the state -/

/-- Record an event (R16). -/
def State.emit (e : Event) (s : State) : State := { s with trace := s.trace ++ [e] }

/-- `PH <- PH + 1` (R111). -/
def State.advance (s : State) : State := { s with ph := s.ph + 1 }

/-- `SELD <- b` (R25). -/
def State.setSeld (b : Bool) (s : State) : State := { s with seld := b }

/-- `RX[k] <- i` (R26). -/
def State.putRx (k : Fin 20) (i : Byte) (s : State) : State := { s with rx := s.rx.set k.val i }

/-- The transport after an act on it. -/
def State.setBus (b : Transport) (s : State) : State := { s with bus := b }

/-- Deliver a response: the port carries it in this step, and the event records it (R28, R115). -/
def State.respond (r : Response) (s : State) : State :=
  { s with rsp := some r, trace := s.trace ++ [.rsp r] }

/-- What the host drives in this step (R38). -/
def State.hostNow (s : State) : HostIn := s.host.headD HostIn.quiet

/-- The step has begun: the host's input is taken, and a response delivered in the step before is no
longer on the port (R28, R38; log 7). -/
def State.tick (s : State) : State := { s with host := s.host.tail, rsp := none }

/-- `cmd_ready` (R31, R38). -/
def State.cmdReady (s : State) : Bool := !s.busy

/-- `rsp_valid` (R28, R36). -/
def State.rspValid (s : State) : Bool := s.rsp.isSome

/-! ### Micro-ops and micro-programs -/

/-- `XR(F, k)` for `k` in 0..19, twenty separate micro-ops (R24, R112). -/
def burstReceives : List MicroOp := List.ofFn fun k : Fin 20 => .xr fillByte k

/-- `prog(OP, A, D)` (R112). -/
def prog (op : BusOp) (a : Addr) (d : Word16) : List MicroOp :=
  match op with
  | .read =>
    [.sel, .tx (a.setWidth 8), .tx fillByte, .desel, .stall,
     .sel, .xr fillByte 0, .xr fillByte 1, .desel, .stall]
  | .write =>
    [.sel, .tx (hiByte (lowWord a d)), .tx (loByte (lowWord a d)), .desel, .stall,
     .sel, .tx (hiByte (highWord a d)), .tx (loByte (highWord a d)), .desel, .stall]
  | .burstw | .burstb =>
    [.sel, .tx (hiByte trigWord), .tx (loByte trigWord)] ++ burstReceives ++ [.desel, .stall]

/-- The micro-program of the command in flight (R24). -/
def State.program (s : State) : List MicroOp := prog s.op s.a s.d

/-- A transfer of `o`, its byte given to `keep` (R111 `TX`, `XR`): enabled when selected; without an
answer the block stays as it is (R121). -/
def transferOp (o : Byte) (keep : Byte → State → State) (s : State) :
    Host.Outcome State Fault Refusal :=
  if s.seld then
    match s.bus.transfer o with
    | (some i, b) => .next (((keep i (s.setBus b)).advance).emit (.xfer o i))
    | (none, b) => .next (s.setBus b)
  else .fault .notEnabled

/-- One micro-op (R111). -/
def microOp (m : MicroOp) (s : State) : Host.Outcome State Fault Refusal :=
  match m with
  | .sel =>
    if s.seld then .fault .notEnabled
    else .next ((((s.setBus s.bus.select).setSeld true).advance).emit .sel)
  | .tx o => transferOp o (fun _ t => t) s
  | .xr o k => transferOp o (State.putRx k) s
  | .desel =>
    if s.seld then .next (((s.setSeld false).advance).emit .desel) else .fault .notEnabled
  | .stall =>
    if s.seld then .fault .notEnabled else .next (s.advance.emit (.delay s.cfg.tStallUs))

/-- Whether a micro-op, enabled but for that, waits for the transport's answer (R121). -/
def waitsOn (m : MicroOp) (s : State) : Bool :=
  match m with
  | .tx o | .xr o _ => s.seld && (s.bus.transfer o).1.isNone
  | .sel | .desel | .stall => false

/-- Whether the sequencer waits for the transport's answer (R121). -/
def State.waiting (s : State) : Bool :=
  match s.program[s.ph]? with
  | some m => waitsOn m s
  | none => false

/-- The response of the command in flight, from `RX` (R28). -/
def responseOf (op : BusOp) (rx : Vector Byte 20) : Response :=
  match op with
  | .read => .rdVal (asS16 (assembleWord rx[0] rx[1]))
  | .write => .wrDone writeSuccess
  | .burstw => .burstWords (Vector.ofFn fun k => asS16 (wordView rx k)) (ckOk rx)
  | .burstb => .burstBytes rx

/-- The end of a bus command (R115). -/
def State.finish (s : State) : State := ({ s with busy := false }).respond (responseOf s.op s.rx)

/-- One step of the sequencer, with `BUSY = 1` (R114, R115). -/
def sequencerStep (s : State) : Host.Outcome State Fault Refusal :=
  match s.program[s.ph]? with
  | some m => microOp m s
  | none => if s.ph = s.program.length then .next s.finish else .fault .phaseOverrun

/-! ### Commands -/

/-- Acceptance of the bus command `c` (R113), with the operands `A` and `D` hold from then on. -/
def accept (op : BusOp) (c : Instr) (a : Addr) (d : Word16) (s : State) : State :=
  ({ s with op := op, a := a, d := d, ph := 0, busy := true }).emit (.cmd c)

/-- The steps of the sequencer until the command's response, at most `n`, or until the transport does
not answer (R114, R115, R121). -/
def runToEnd : Nat → State → Host.Outcome State Fault Refusal
  | 0, s => .next s
  | n + 1, s =>
    if s.busy && !s.waiting then
      match sequencerStep s with
      | .next t => runToEnd n t
      | .fault r => .fault r
      | .refused r => .refused r
    else .next s

/-- The most steps a command takes after its acceptance: 25 micro-ops and the end (R122). -/
def maxSteps : Nat := 26

/-- A bus command, whole: accepted if `BUSY = 0` and run until its response; with `BUSY = 1` nothing
happens (R38, R113 to R115). -/
def busCommand (op : BusOp) (c : Instr) (a : Addr) (d : Word16) (s : State) :
    Host.Outcome State Fault Refusal :=
  if s.busy then .next s else runToEnd maxSteps (accept op c a d s)

/-- A pure command (R116): `Cmd`, then `Rsp`, nothing else; with `BUSY = 1` nothing happens (R38). -/
def pureCommand (c : Instr) (r : Response) (s : State) : Host.Outcome State Fault Refusal :=
  if s.busy then .next s else .next ((s.emit (.cmd c)).respond r)

/-- A SCALE command: unassigned, so without any effect, where there is no unit `SCL` (R12, R97). -/
def scaleCommand (c : Instr) (k : ScaleConst) (r : Word16) (s : State) :
    Host.Outcome State Fault Refusal :=
  if s.cfg.hasScl then pureCommand c (.scaled (scaleBy s.cfg.floatFmt k r)) s else .next s

/-! ### Frames -/

/-- Micro-ops one after another, until the transport does not answer one of them. -/
def runMicroOps : List MicroOp → State → Host.Outcome State Fault Refusal
  | [], s => .next s
  | m :: ms, s =>
    if waitsOn m s then .next s
    else
      match microOp m s with
      | .next t => runMicroOps ms t
      | .fault r => .fault r
      | .refused r => .refused r

/-- A frame whose received frame is discarded (R84, R85): two exchanges, the byte `[15:8]` first. -/
def sendFrame (w : Word16) (s : State) : Host.Outcome State Fault Refusal :=
  runMicroOps [.tx (hiByte w), .tx (loByte w)] s

/-- The exchange of a fill byte `n` places on: kept where the micro-program in flight keeps it, else
discarded (R84). -/
def fillOp (s : State) (n : Nat) : MicroOp :=
  match s.busy, s.program[s.ph + n]? with
  | true, some (.xr _ k) => .xr fillByte k
  | _, _ => .tx fillByte

/-! ### Reset -/

/-- The bus event of a reset: a selected bus is released (R250). -/
def releaseBus (seld : Bool) : List Event :=
  match seld with
  | true => [.desel]
  | false => []

/-- Reset (R36, R250, R252): the block's state is that of the table, a selected bus is released with one
`Desel`, and nothing else is recorded. What R36 leaves unspecified is as in `State.reset` (log 21). -/
def State.doReset (s : State) : State :=
  { s with
    busy  := State.reset.busy
    op    := State.reset.op
    a     := State.reset.a
    d     := State.reset.d
    ph    := State.reset.ph
    seld  := State.reset.seld
    rx    := State.reset.rx
    rsp   := State.reset.rsp
    trace := s.trace ++ releaseBus s.seld }

end Sys2Proof.Machine
end

