-- ==== Sys2Proof/Machine/Burst.lean ====
section
/-! DEFINITION. BURSTW and BURSTB (spec/42_burst.md): one micro-program, two responses (R164). -/

namespace Sys2Proof.Machine

/-- The step that accepts BURSTW (R113): it has no operand, `A` and `D` are left alone. -/
def acceptBurstw (s : State) : State := accept .burstw .burstw s.a s.d s

/-- BURSTW (R161): trigger and ten fill frames in one transaction, stall, `BurstWords`. -/
def execBurstw (s : State) : Host.Outcome State Fault Refusal :=
  busCommand .burstw .burstw s.a s.d s

/-- The step that accepts BURSTB (R113). -/
def acceptBurstb (s : State) : State := accept .burstb .burstb s.a s.d s

/-- BURSTB (R163): the bus events of BURSTW, `BurstBytes`. -/
def execBurstb (s : State) : Host.Outcome State Fault Refusal :=
  busCommand .burstb .burstb s.a s.d s

end Sys2Proof.Machine
end

