-- ==== Sys2Proof/Machine/Checksum.lean ====
section
/-! DEFINITION. CKSUM and VALID (spec/43_checksum.md): pure commands over unit `CKV` (Flags.lean). -/

namespace Sys2Proof.Machine

/-- CKSUM(w) (R182): `Sum(cksum(w[0..8]))`. -/
def execCksum (w : Words) (s : State) : Host.Outcome State Fault Refusal :=
  pureCommand (.cksum w) (.sum (cksum w)) s

/-- VALID(w) (R185): `Valid(valid(w))`. -/
def execValid (w : Words) (s : State) : Host.Outcome State Fault Refusal :=
  pureCommand (.valid w) (.valid (validBit w)) s

end Sys2Proof.Machine
end

