-- ==== Sys2Proof/Machine/RegisterAccess.lean ====
section
/-! DEFINITION. READ and WRITE (spec/41_register_access.md). Their micro-programs are the first two lines
of `prog`, their responses the first two of `responseOf`. -/

namespace Sys2Proof.Machine

/-- The step that accepts READ(a) (R113): `A` is latched, `D` is left alone. -/
def acceptRead (a : Addr) (s : State) : State := accept .read (.read a) a s.d s

/-- READ(a) (R141): request frame, stall, fill frame into `RX[0]` and `RX[1]`, stall, `RdVal`. -/
def execRead (a : Addr) (s : State) : Host.Outcome State Fault Refusal :=
  busCommand .read (.read a) a s.d s

/-- The step that accepts WRITE(a, d) (R113): both operands are latched. -/
def acceptWrite (a : Addr) (d : Word16) (s : State) : State := accept .write (.write a d) a d s

/-- WRITE(a, d) (R144): the frame `lowWord`, stall, the frame `highWord`, stall, `WrDone(1)`. -/
def execWrite (a : Addr) (d : Word16) (s : State) : Host.Outcome State Fault Refusal :=
  busCommand .write (.write a d) a d s

end Sys2Proof.Machine
end

