-- ==== Sys2Proof/Machine/Scale.lean ====
section
/-! DEFINITION. The five SCALE commands of the optional unit `SCL` (spec/44_scaling.md), each by its own
constant (R207). -/

namespace Sys2Proof.Machine

/-- SCALE.ACCEL(r) (R201). -/
def execScaleAccel (r : Word16) (s : State) : Host.Outcome State Fault Refusal :=
  scaleCommand (.scaleAccel r) accelConst r s

/-- SCALE.GYRO(r) (R202). -/
def execScaleGyro (r : Word16) (s : State) : Host.Outcome State Fault Refusal :=
  scaleCommand (.scaleGyro r) gyroConst r s

/-- SCALE.TEMP(r) (R203). -/
def execScaleTemp (r : Word16) (s : State) : Host.Outcome State Fault Refusal :=
  scaleCommand (.scaleTemp r) tempConst r s

/-- SCALE.DANG(r) (R204). -/
def execScaleDang (r : Word16) (s : State) : Host.Outcome State Fault Refusal :=
  scaleCommand (.scaleDang r) dangConst r s

/-- SCALE.DVEL(r) (R205). -/
def execScaleDvel (r : Word16) (s : State) : Host.Outcome State Fault Refusal :=
  scaleCommand (.scaleDvel r) dvelConst r s

end Sys2Proof.Machine
end

