-- ==== Sys2Proof/Machine/Wire.lean ====
section
/-! DEFINITION. The five wire frames as instructions of the sequencer (spec/30_encoding.md R82 to R88): a
frame is exchanged as two bytes on a selected bus (R85), that is by two micro-ops (log 11). -/

namespace Sys2Proof.Machine

/-- WR.LO (R88): the first write frame; what is received is discarded (R84). -/
def execWrLo (addr : Addr) (data : Byte) (s : State) : Host.Outcome State Fault Refusal :=
  sendFrame (wrWord addr data) s

/-- WR.HI (R88): the second write frame; what is received is discarded (R84). -/
def execWrHi (addr : Addr) (data : Byte) (s : State) : Host.Outcome State Fault Refusal :=
  sendFrame (wrWord addr data) s

/-- RQ (R87): the read-request frame; what is received is discarded (R84). -/
def execRq (addr : Addr) (s : State) : Host.Outcome State Fault Refusal :=
  sendFrame (rqWord addr) s

/-- FILL (R83): sent only to receive; kept in `RX` in the response phase of the command in flight, else
discarded (R84). -/
def execFill (s : State) : Host.Outcome State Fault Refusal :=
  runMicroOps [fillOp s 0, fillOp s 1] s

/-- TRIG (R86): the burst trigger; what is received is discarded (R84, R168). -/
def execTrig (s : State) : Host.Outcome State Fault Refusal :=
  sendFrame trigWord s

end Sys2Proof.Machine
end

