-- ==== Sys2Proof/Machine/Dispatch.lean ====
section
/-! DEFINITION. One arm per instruction: a command, whole, or a frame, whole. -/

namespace Sys2Proof.Machine

def exec (i : Instr) (s : State) : Host.Outcome State Fault Refusal :=
  match i with
  | .read a => Sys2Proof.Machine.execRead a s
  | .write a d => Sys2Proof.Machine.execWrite a d s
  | .burstw => Sys2Proof.Machine.execBurstw s
  | .burstb => Sys2Proof.Machine.execBurstb s
  | .cksum w => Sys2Proof.Machine.execCksum w s
  | .valid w => Sys2Proof.Machine.execValid w s
  | .scaleAccel r => Sys2Proof.Machine.execScaleAccel r s
  | .scaleGyro r => Sys2Proof.Machine.execScaleGyro r s
  | .scaleTemp r => Sys2Proof.Machine.execScaleTemp r s
  | .scaleDang r => Sys2Proof.Machine.execScaleDang r s
  | .scaleDvel r => Sys2Proof.Machine.execScaleDvel r s
  | .wrLo addr data => Sys2Proof.Machine.execWrLo addr data s
  | .wrHi addr data => Sys2Proof.Machine.execWrHi addr data s
  | .rq addr => Sys2Proof.Machine.execRq addr s
  | .fill => Sys2Proof.Machine.execFill s
  | .trig => Sys2Proof.Machine.execTrig s

end Sys2Proof.Machine
end

