-- ==== Sys2Proof/Machine/Fetch.lean ====
section
/-! DEFINITION. Where instructions come from: the host port while `BUSY = 0` (spec/10_state.md R38), and
what one step does with a command found there (spec/40_sequencer.md R113, R116). A wire frame comes from
the micro-program of the command in flight (R112). -/

namespace Sys2Proof.Machine

/-- The command the host presents in this step, if the port names one (R38, R97). -/
def State.presented (s : State) : Option Instr :=
  match s.hostNow.cmd with
  | some p => (decodeCommand s.cfg.hasScl p).toOption
  | none => none

/-- The step with `BUSY = 0` in which the host presents `c`: a bus command is accepted (R113), a pure
command is all of it (R116). A wire frame is no command of the port (R97). -/
def startCommand (c : Instr) (s : State) : Host.Outcome State Fault Refusal :=
  match c with
  | .read a => .next (acceptRead a s)
  | .write a d => .next (acceptWrite a d s)
  | .burstw => .next (acceptBurstw s)
  | .burstb => .next (acceptBurstb s)
  | .cksum w => exec (.cksum w) s
  | .valid w => exec (.valid w) s
  | .scaleAccel r => exec (.scaleAccel r) s
  | .scaleGyro r => exec (.scaleGyro r) s
  | .scaleTemp r => exec (.scaleTemp r) s
  | .scaleDang r => exec (.scaleDang r) s
  | .scaleDvel r => exec (.scaleDvel r) s
  | .wrLo _ _ | .wrHi _ _ | .rq _ | .fill | .trig => .next s

/-- How many steps a command takes when the transport answers at once: acceptance, the micro-ops, the
end; or one (R122). A frame takes two, one a byte (R85, R114). -/
def stepCount : Instr → Nat
  | .read _ | .write _ _ => 12
  | .burstw | .burstb => 27
  | .cksum _ | .valid _ => 1
  | .scaleAccel _ | .scaleGyro _ | .scaleTemp _ | .scaleDang _ | .scaleDvel _ => 1
  | .wrLo _ _ | .wrHi _ _ | .rq _ | .fill | .trig => 2

/-- The wire frame of which the first byte is next to be exchanged by the command in flight (R112, R141,
R144, R161). -/
def State.frameDue (s : State) : Option Instr :=
  if s.busy then
    match s.op with
    | .read => if s.ph = 1 then some (.rq s.a) else if s.ph = 6 then some .fill else none
    | .write =>
      if s.ph = 1 then some (.wrLo s.a (loByte s.d))
      else if s.ph = 6 then some (.wrHi (s.a ||| 1) (hiByte s.d))
      else none
    | .burstw | .burstb =>
      if s.ph = 1 then some .trig
      else if 3 ≤ s.ph ∧ s.ph < 23 ∧ s.ph % 2 = 1 then some .fill
      else none
  else none

/-- The state with `p` presented in its next step, and nothing in flight. -/
def State.presenting (p : Port) (s : State) : State :=
  { s with busy := false, host := HostIn.present p :: s.host }

/-- The transport with two more answers, `0x00`, before its own: what a frame's two exchanges need. -/
def Transport.withTwoAnswers : Transport → Transport
  | .script answers draws => .script (some 0 :: some 0 :: answers) draws
  | .stub dev => .stub dev

/-- The state with the frame `f` next to be sent: the bus selected, and a command in flight whose
micro-program has `f` at `PH` (R112). A command is no frame and leaves the state alone. -/
def State.atFrame (f : Instr) (s : State) : State :=
  let t : State :=
    { s with
      busy := true, seld := true, host := HostIn.quiet :: s.host, bus := s.bus.withTwoAnswers }
  match f with
  | .wrLo addr data => { t with op := .write, a := addr, d := hiByte s.d ++ data, ph := 1 }
  | .wrHi addr data => { t with op := .write, a := addr, d := data ++ loByte s.d, ph := 6 }
  | .rq addr => { t with op := .read, a := addr, ph := 1 }
  | .fill => { t with op := .read, ph := 6 }
  | .trig => { t with op := .burstw, ph := 1 }
  | .read _ | .write _ _ | .burstw | .burstb | .cksum _ | .valid _ => s
  | .scaleAccel _ | .scaleGyro _ | .scaleTemp _ | .scaleDang _ | .scaleDvel _ => s

end Sys2Proof.Machine
end

