-- ==== Sys2Proof/Machine/Step.lean ====
section
/-! DEFINITION. One step of the machine (spec/40_sequencer.md R113 to R116), under the host's input of
that step: reset overrides everything (spec/60_exceptions.md R227, spec/70_reset_and_hazards.md R250); with
`BUSY = 1` the sequencer takes its step and a presented command is ignored (spec/10_state.md R38); with
`BUSY = 0` a presented command is taken, and anything else leaves the block idle (R97, R251). -/

namespace Sys2Proof.Machine

/-- One step. -/
def step (s : State) : Host.Outcome State Fault Refusal :=
  if s.hostNow.rst then .next s.tick.doReset
  else if s.busy then sequencerStep s.tick
  else
    match s.presented with
    | some c => startCommand c s.tick
    | none => .next s.tick

/-- The state with an instruction of the opcode table's numbering where the next step takes it from: a
command on the host port, its operand wires 0; a frame at `PH` of a command in flight (log 12). -/
def State.withFetchWord (s : State) (nbits w : Nat) : State :=
  if nbits ≤ 8 then s.presenting (Port.ofOpcode (BitVec.ofNat 4 w))
  else
    match decodeTableWord nbits w with
    | some f => s.atFrame f
    | none => s

end Sys2Proof.Machine
end

