-- ==== Sys2Proof/Machine/BigStep.lean ====
section
/-! DEFINITION. The big-step form of the bus commands (spec/40_sequencer.md R118): the events and the
response as a function of the command and the bytes received, written apart from the sequencer so that
the two can be held against each other (R119). -/

namespace Sys2Proof.Machine

/-- Twenty received bytes as the receive buffer (R26). -/
def burstBuffer (bs : List Byte) : Option (Vector Byte 20) :=
  if h : bs.length = 20 then some ⟨bs.toArray, by simp [h]⟩ else none

/-- The events of a 2-byte transaction that sends `w`, and its stall (R80, R85, R117). -/
def frameEvents (us : Nat) (w : Word16) (i j : Byte) : List Event :=
  [.sel, .xfer (hiByte w) i, .xfer (loByte w) j, .desel, .delay us]

/-- The events of a burst (R118, R162). -/
def burstEvents (us : Nat) (t0 t1 : Byte) (bs : List Byte) : List Event :=
  [.sel, .xfer 0x68 t0, .xfer 0x00 t1] ++ bs.map (.xfer 0x00) ++ [.desel, .delay us]

/-- `run(c, ins)` (R118), with `T_STALL_US = us`; `none` for a command without bus events or a list of
another length than the command's transfers. -/
def run (us : Nat) (c : Instr) (ins : List Byte) : Option (List Event × Response) :=
  match c with
  | .read a =>
    match ins with
    | [i0, i1, i2, i3] =>
      some (frameEvents us (rqWord a) i0 i1 ++ frameEvents us fillWord i2 i3,
        .rdVal (asS16 (i2 ++ i3)))
    | _ => none
  | .write a d =>
    match ins with
    | [i0, i1, i2, i3] =>
      some (frameEvents us (lowWord a d) i0 i1 ++ frameEvents us (highWord a d) i2 i3,
        .wrDone true)
    | _ => none
  | .burstw =>
    match ins with
    | t0 :: t1 :: bs =>
      (burstBuffer bs).map fun b =>
        (burstEvents us t0 t1 bs,
          .burstWords (Vector.ofFn fun j : Fin 10 => asS16 (b[2 * j.val] ++ b[2 * j.val + 1]))
            (validBit (Vector.ofFn fun j : Fin 10 => b[2 * j.val] ++ b[2 * j.val + 1])))
    | _ => none
  | .burstb =>
    match ins with
    | t0 :: t1 :: bs =>
      (burstBuffer bs).map fun b => (burstEvents us t0 t1 bs, .burstBytes b)
    | _ => none
  | .cksum _ | .valid _ => none
  | .scaleAccel _ | .scaleGyro _ | .scaleTemp _ | .scaleDang _ | .scaleDvel _ => none
  | .wrLo _ _ | .wrHi _ _ | .rq _ | .fill | .trig => none

/-- The micro-program a command goes through (R112); a pure command has none (R116). -/
def commandProgram : Instr → List MicroOp
  | .read a => prog .read a 0
  | .write a d => prog .write a d
  | .burstw => prog .burstw 0 0
  | .burstb => prog .burstb 0 0
  | .cksum _ | .valid _ => []
  | .scaleAccel _ | .scaleGyro _ | .scaleTemp _ | .scaleDang _ | .scaleDvel _ => []
  | .wrLo _ _ | .wrHi _ _ | .rq _ | .fill | .trig => []

/-- The two exchanges of a frame (R85); a command is no frame. -/
def frameProgram : Instr → List MicroOp
  | .wrLo addr data | .wrHi addr data =>
    [.tx (hiByte (wrWord addr data)), .tx (loByte (wrWord addr data))]
  | .rq addr => [.tx (hiByte (rqWord addr)), .tx (loByte (rqWord addr))]
  | .fill => [.tx (hiByte fillWord), .tx (loByte fillWord)]
  | .trig => [.tx (hiByte trigWord), .tx (loByte trigWord)]
  | .read _ | .write _ _ | .burstw | .burstb | .cksum _ | .valid _ => []
  | .scaleAccel _ | .scaleGyro _ | .scaleTemp _ | .scaleDang _ | .scaleDvel _ => []

/-- The state after the host's inputs of `n` steps have passed (log 3). -/
def State.ticks : Nat → State → State
  | 0, s => s
  | n + 1, s => s.tick.ticks n

end Sys2Proof.Machine
end

