-- ==== Sys2Proof/Safety.lean ====
section
/-! DEFINITION. What claims about runs are said with: the bus trace and what the sensor can see of it
(spec/00_scope.md R16), the bus protocol (spec/10_state.md R37), the invariants of the block, and which
register contents can still be read (spec/40_sequencer.md R124). -/

namespace Sys2Proof.Machine

/-! ### Traces -/

/-- The events of the bus trace: all but `Cmd` and `Rsp` (R16). -/
def Event.isBus : Event → Bool
  | .sel | .desel | .xfer _ _ | .delay _ => true
  | .cmd _ | .rsp _ => false

/-- The bus trace (R16). -/
def busTrace (es : List Event) : List Event := es.filter Event.isBus

/-- An event with the received byte left out. -/
def Event.sent : Event → Event
  | .xfer o _ => .xfer o 0x00
  | .sel => .sel
  | .desel => .desel
  | .delay us => .delay us
  | .cmd c => .cmd c
  | .rsp r => .rsp r

/-- What the sensor can tell of a run: the bus trace without the received bytes (R16). -/
def sensorView (es : List Event) : List Event := (busTrace es).map Event.sent

/-- How many events of a list satisfy `p` (R125). -/
def countEvents (p : Event → Bool) (es : List Event) : Nat := (es.filter p).length

/-- Whether an event is an `Xfer`. -/
def Event.isXfer : Event → Bool
  | .xfer _ _ => true
  | _ => false

/-- Whether an event is a `Delay`. -/
def Event.isDelay : Event → Bool
  | .delay _ => true
  | _ => false

/-- Whether the bus is selected after an event. -/
def selectedStep (b : Bool) : Event → Bool
  | .sel => true
  | .desel => false
  | _ => b

/-- Whether a trace ends in a `Sel` with no `Desel` after it (R37 (c)). -/
def traceSelected (es : List Event) : Bool := es.foldl selectedStep false

/-! ### The bus protocol -/

/-- Where a bus trace stands in the pattern `Sel Xfer* Desel Delay` (R37 (d), R80, R117). -/
inductive BusPhase where
  /-- a `Sel` may come -/
  | ready
  /-- between `Sel` and `Desel` -/
  | selected
  /-- after a `Desel`, before its `Delay` -/
  | owesDelay
  /-- the pattern is broken -/
  | broken
  deriving DecidableEq, Repr

/-- The pattern, with a stall of `us` microseconds. -/
def busPhaseStep (us : Nat) (p : BusPhase) (e : Event) : BusPhase :=
  match e with
  | .sel => if p = .ready then .selected else .broken
  | .xfer _ _ => if p = .selected then .selected else .broken
  | .desel => if p = .selected then .owesDelay else .broken
  | .delay t => if p = .owesDelay ∧ t = us then .ready else .broken
  | .cmd _ => p
  | .rsp _ => p

/-- Where a trace stands. -/
def busPhase (us : Nat) (es : List Event) : BusPhase := es.foldl (busPhaseStep us) .ready

/-- Where the micro-ops done so far leave the bus. -/
def phaseAfter (ms : List MicroOp) : BusPhase :=
  ms.foldl (fun p m => match m with
    | .sel | .tx _ | .xr _ _ => .selected
    | .desel => .owesDelay
    | .stall => if p = .owesDelay then .ready else .broken) .ready

/-- R37 (d) on a bus trace: what follows a `Desel` is its `Delay`, and what stands before a `Sel`, if
anything does, is a `Delay`. -/
def StallBetween (us : Nat) (es : List Event) : Prop :=
  (∀ i e, es[i]? = some .desel → es[i + 1]? = some e → e = .delay us) ∧
  (∀ i e, es[i + 1]? = some .sel → es[i]? = some e → e = .delay us)

/-- Where a trace stands between `Cmd` and `Rsp` (R38). -/
inductive PortPhase where
  /-- every `Cmd` has its `Rsp` -/
  | answered
  /-- the last `Cmd` waits for its `Rsp` -/
  | pending
  /-- a `Cmd` without a `Rsp` before the next, or a `Rsp` without a `Cmd` -/
  | broken
  deriving DecidableEq, Repr

/-- One `Rsp` for each `Cmd`, and no `Cmd` between a `Cmd` and its `Rsp` (R38). -/
def portPhaseStep (p : PortPhase) (e : Event) : PortPhase :=
  match e with
  | .cmd _ => if p = .answered then .pending else .broken
  | .rsp _ => if p = .pending then .answered else .broken
  | .sel => p
  | .desel => p
  | .xfer _ _ => p
  | .delay _ => p

/-- Where a trace stands. -/
def portPhase (es : List Event) : PortPhase := es.foldl portPhaseStep .answered

/-- What the frames of a bus command are, in the order they are sent (R83, R101). -/
def framesSent : Instr → List Instr
  | .read a => [.rq a, .fill]
  | .write a d => [.wrLo a (loByte d), .wrHi (a ||| 1) (hiByte d)]
  | .burstw | .burstb => .trig :: List.replicate 10 .fill
  | .cksum _ | .valid _ => []
  | .scaleAccel _ | .scaleGyro _ | .scaleTemp _ | .scaleDang _ | .scaleDvel _ => []
  | .wrLo _ _ | .wrHi _ _ | .rq _ | .fill | .trig => []

/-! ### Values -/

/-- The eighteen bytes of nine words (R188). -/
def bytesOf (w : Vector Word16 9) : List Byte := w.toList.flatMap fun x => [loByte x, hiByte x]

/-- A `FLOAT_FMT` value that is neither an infinity nor a NaN: its exponent field is not all ones. -/
def FloatVal.isFinite : FloatVal → Bool
  | .b32 bits => bits.extractLsb' 23 8 != 0xFF#8
  | .b64 bits => bits.extractLsb' 52 11 != 0x7FF#11

/-- The five constants of R207. -/
def scaleConsts : List ScaleConst := [accelConst, gyroConst, tempConst, dangConst, dvelConst]

/-- Where the byte received at phase `n` of the command in flight is kept (R84, R112): the second frame
of a READ, and frames 2 to 11 of a burst. -/
def State.receiveIndex (s : State) (n : Nat) : Option (Fin 20) :=
  if s.busy then
    match s.op with
    | .read => if n = 6 then some 0 else if n = 7 then some 1 else none
    | .write => none
    | .burstw | .burstb => if 3 ≤ n ∧ n < 23 then some (Fin.ofNat 20 (n - 3)) else none
  else none

/-- A receive buffer with a byte put in its place, if it has one. -/
def keepByte (k : Option (Fin 20)) (i : Byte) (rx : Vector Byte 20) : Vector Byte 20 :=
  match k with
  | some k => rx.set k.val i
  | none => rx

/-! ### Invariants -/

/-- The micro-ops the command in flight has behind it. -/
def State.done (s : State) : List MicroOp := s.program.take s.ph

/-- R37 (a), (b), (c), with the place in the micro-program that decides `SELD`. -/
abbrev State.Inv (s : State) : Prop :=
  (s.busy = false → s.seld = false) ∧
  (s.busy = true → s.ph ≤ s.program.length ∧ (s.seld = true ↔ phaseAfter s.done = .selected)) ∧
  s.seld = traceSelected s.trace

/-- Where the bus protocol stands in a state: as the command in flight has left it, or ready. -/
def State.busPlace (s : State) : BusPhase :=
  match s.busy with
  | true => phaseAfter s.done
  | false => .ready

/-- Where the port stands in a state: a command is open exactly while `BUSY = 1`. -/
def State.portPlace (s : State) : PortPhase :=
  match s.busy with
  | true => .pending
  | false => .answered

/-- R37 (d): the trace keeps the bus protocol, and stands where the command in flight has got to. -/
abbrev State.StallInv (s : State) : Prop :=
  busPhase s.cfg.tStallUs s.trace = s.busPlace

/-- R38: the trace's `Cmd` and `Rsp` alternate, and one is open exactly while `BUSY = 1`. -/
abbrev State.PortInv (s : State) : Prop :=
  portPhase s.trace = s.portPlace

/-- The host does not reset a block with a command in flight in this step (R252). -/
abbrev State.ResetsClean (s : State) : Prop := s.busy = true → s.hostNow.rst = false

/-- No reset in the next `n` steps. -/
abbrev State.NoReset (n : Nat) (s : State) : Prop := ∀ h ∈ s.host.take n, h.rst = false

/-- The end of a run of a program (R123). -/
abbrev State.Quiescent (s : State) : Prop := s.busy = false ∧ s.seld = false

/-- Both memories of a state are canonical: the fixture's is the only one. -/
def Transport.memoryOk : Transport → Bool
  | .script _ _ => true
  | .stub dev => Memory.wf dev.mem

/-! ### What can still be read -/

/-- Whether the command in flight has already put a byte into `RX[k]` (R124). -/
def State.hasReceived (s : State) (k : Fin 20) : Bool :=
  s.done.any fun m => match m with
    | .xr _ j => j == k
    | _ => false

/-- Two states that differ only in what no rule reads any more: everything of `OP`, `A`, `D`, `PH`, `RX`
while idle; the operands the command in flight does not use, and the bytes of `RX` it has not received
yet, while busy (R20, R23, R124). -/
def State.Agrees (s t : State) : Prop :=
  s.busy = t.busy ∧ s.seld = t.seld ∧ s.cfg = t.cfg ∧ s.rsp = t.rsp ∧ s.host = t.host ∧
  s.bus = t.bus ∧ s.trace = t.trace ∧
  (s.busy = true →
    s.op = t.op ∧ s.program = t.program ∧ s.ph = t.ph ∧
    ∀ k : Fin 20, s.hasReceived k = true → s.rx[k] = t.rx[k])

end Sys2Proof.Machine
end

