-- ==== Sys2Proof/Certificates/Slice0/Obligations.lean ====
section
/-! DEFINITION. The statements for the provers. Where a statement asks that the transport answers, it says so
by `Transport.play`, which holds of listed answers, of the free ones and of the fixture alike: whatever
bytes come, the conclusion is about them. No statement rests on a value of `Config.freeAnswer`, on the
values `State.reset` gives `OP`, `A`, `D` and `RX`, or on those it gives the OPEN constants. -/

open Sys2Proof Sys2Proof.Machine

/-! ### Reset -/

/-- R36, R9, R10: after reset no command is in flight, the bus is deselected, `PH` is 0, no response is on the
port, `cmd_ready` is 1, and the constants the spec gives have its values. -/
def Obligations.ResetLeavesBlockIdle : Prop :=
  State.reset.busy = false ∧ State.reset.seld = false ∧ State.reset.ph = 0 ∧
  State.reset.rspValid = false ∧ State.reset.cmdReady = true ∧ State.reset.trace = [] ∧
  State.reset.cfg.tStallUs = 20 ∧ State.reset.cfg.sclkHz = 1000000 ∧
  State.reset.cfg.bitOrder = .msbFirst

/-- The state after reset meets every invariant that the steps keep. -/
def Obligations.ResetMeetsInvariants : Prop :=
  State.reset.Inv ∧ State.reset.StallInv ∧ State.reset.PortInv ∧
  State.reset.bus.memoryOk = true

/-- R250: a step with `rst` asserted leaves the table of R36, whatever was going on and whatever is presented;
it records one `Desel` if the bus was selected and nothing otherwise. -/
def Obligations.ResetStepAbandonsCommand : Prop :=
  ∀ s : State, s.hostNow.rst = true →
    ∃ t, step s = .next t ∧ t.busy = false ∧ t.seld = false ∧ t.ph = 0 ∧ t.rspValid = false ∧
      t.cmdReady = true ∧ t.cfg = s.cfg ∧ t.bus = s.bus ∧ t.host = s.host.tail ∧
      t.trace = if s.seld then s.trace ++ [.desel] else s.trace

/-- R253: after a reset the first `Sel` follows acceptance at once, with no `Delay` before it. -/
def Obligations.FirstSelectAfterResetOwesNoStall : Prop :=
  ∀ (s : State) (x y : Option Port) (p : Port) (h : List HostIn) (c : Instr),
    s.host = ⟨true, x⟩ :: ⟨false, some p⟩ :: ⟨false, y⟩ :: h →
    decodeCommand s.cfg.hasScl p = .ok c → commandProgram c ≠ [] →
    ∃ t, Host.Core.run core 3 s = .next t ∧
      t.trace = (if s.seld then s.trace ++ [.desel] else s.trace) ++ [.cmd c, .sel]

/-- R251: with nothing in flight and nothing presented, a step records nothing and changes no register. The
model's own choices, not the spec's: that idling is a next state (log 23, DEDUCED), and that `rsp` becomes none, so
that `rsp_valid` falls in the very next step (log 7, DESIGN CHOICE); both are in `State.tick`. -/
def Obligations.IdleBlockStaysIdle : Prop :=
  ∀ s : State, s.busy = false → s.hostNow = HostIn.quiet → step s = .next s.tick

/-! ### Invariants of every step -/

/-- R37 (a), (b), (c): `SELD = 0` while idle; `PH` within the micro-program and `SELD` as its place says while
busy; `SELD = 1` exactly when the trace ends in a `Sel` with no `Desel` after it. -/
def Obligations.StepKeepsInvariant : Prop :=
  ∀ s t : State, s.Inv → step s = .next t → t.Inv

/-- R37 (d), R117: every step that does not reset a busy block keeps the bus trace in the pattern
`Sel Xfer* Desel Delay(T_STALL_US)`. -/
def Obligations.StepKeepsStallProtocol : Prop :=
  ∀ s t : State, s.Inv → s.StallInv → s.ResetsClean → step s = .next t → t.StallInv

/-- R37 (d): a trace in that pattern has its `Delay` at once after every `Desel`, and every `Sel` but a first
one at once after a `Delay`. -/
def Obligations.StallProtocolPutsDelayBetween : Prop :=
  ∀ (us : Nat) (es : List Event), busPhase us es ≠ .broken →
    StallBetween us (busTrace es) ∧
    (busPhase us es = .ready →
      ∀ i, (busTrace es)[i]? = some .desel → (busTrace es)[i + 1]? = some (.delay us))

/-- R38: `Cmd` and `Rsp` alternate, and a command is open exactly while `BUSY = 1`. -/
def Obligations.StepKeepsOneResponsePerCommand : Prop :=
  ∀ s t : State, s.PortInv → s.ResetsClean → step s = .next t → t.PortInv

/-- R221: no step of a state that meets the invariant faults or refuses. That an idle step and an unanswered transfer
are next states too is the model's own reading (log 23, log 8). -/
def Obligations.StepNeverStops : Prop :=
  ∀ s : State, s.Inv → ∃ t, step s = .next t

/-- R30: no step changes a constant of the instance; each takes one input of the host. -/
def Obligations.StepKeepsConstants : Prop :=
  ∀ s t : State, step s = .next t → t.cfg = s.cfg ∧ t.host = s.host.tail

/-- The fixture's memory keeps its canonical form (R68). -/
def Obligations.StepKeepsFixtureMemoryCanonical : Prop :=
  ∀ s t : State, s.bus.memoryOk = true → step s = .next t → t.bus.memoryOk = true

/-- R20, R124: what a register holds that no rule reads is never observed: two states that differ only in
that step alike, to states that differ only in that. -/
def Obligations.UnreadRegistersAreNeverObserved : Prop :=
  ∀ s t : State, s.Agrees t →
    (∀ s', step s = .next s' → ∃ t', step t = .next t' ∧ s'.Agrees t') ∧
    (∀ r, step s = .fault r → step t = .fault r)

/-! ### The step -/

/-- R113: acceptance of a bus command, in one step: no bus event, `RX` not cleared. What the response port shows
then is left open (`p`). -/
def Obligations.AcceptanceStep : Prop :=
  ∀ s : State, s.busy = false → s.hostNow.rst = false →
    (∀ a, s.presented = some (.read a) → ∃ p,
      step s = .next { s with
        op := .read, a := a, ph := 0, busy := true, rsp := p, host := s.host.tail,
        trace := s.trace ++ [.cmd (.read a)] }) ∧
    (∀ a d, s.presented = some (.write a d) → ∃ p,
      step s = .next { s with
        op := .write, a := a, d := d, ph := 0, busy := true, rsp := p, host := s.host.tail,
        trace := s.trace ++ [.cmd (.write a d)] }) ∧
    (s.presented = some .burstw → ∃ p,
      step s = .next { s with
        op := .burstw, ph := 0, busy := true, rsp := p, host := s.host.tail,
        trace := s.trace ++ [.cmd .burstw] }) ∧
    (s.presented = some .burstb → ∃ p,
      step s = .next { s with
        op := .burstb, ph := 0, busy := true, rsp := p, host := s.host.tail,
        trace := s.trace ++ [.cmd .burstb] })

/-- R116: a pure command is one step: `Cmd`, then `Rsp`, no register written, `BUSY` still 0, no bus event. -/
def Obligations.PureCommandStep : Prop :=
  ∀ (s : State) (c : Instr) (r : Response), s.busy = false → s.hostNow.rst = false →
    s.presented = some c →
    ((∃ w, c = .cksum w ∧ r = .sum (cksum w)) ∨
     (∃ w, c = .valid w ∧ r = .valid (validBit w)) ∨
     (∃ v, c = .scaleAccel v ∧ r = .scaled (scaleBy s.cfg.floatFmt accelConst v)) ∨
     (∃ v, c = .scaleGyro v ∧ r = .scaled (scaleBy s.cfg.floatFmt gyroConst v)) ∨
     (∃ v, c = .scaleTemp v ∧ r = .scaled (scaleBy s.cfg.floatFmt tempConst v)) ∨
     (∃ v, c = .scaleDang v ∧ r = .scaled (scaleBy s.cfg.floatFmt dangConst v)) ∨
     (∃ v, c = .scaleDvel v ∧ r = .scaled (scaleBy s.cfg.floatFmt dvelConst v))) →
    step s = .next { s with
      rsp := some r, host := s.host.tail, trace := s.trace ++ [.cmd c, .rsp r] }

/-- R111: what each micro-op does where it is enabled; that it takes no next state where its condition on `SELD`
fails; and that the condition always holds when the sequencer gets to the micro-op. -/
def Obligations.MicroOpEffects : Prop :=
  ∀ s : State,
    (s.seld = false → microOp .sel s = .next { s with
      seld := true, ph := s.ph + 1, bus := s.bus.select, trace := s.trace ++ [.sel] }) ∧
    (∀ o i b, s.seld = true → s.bus.transfer o = (some i, b) → microOp (.tx o) s = .next { s with
      ph := s.ph + 1, bus := b, trace := s.trace ++ [.xfer o i] }) ∧
    (∀ o k i b, s.seld = true → s.bus.transfer o = (some i, b) →
      microOp (.xr o k) s = .next { s with
        ph := s.ph + 1, bus := b, rx := s.rx.set k.val i, trace := s.trace ++ [.xfer o i] }) ∧
    (s.seld = true → microOp .desel s = .next { s with
      seld := false, ph := s.ph + 1, trace := s.trace ++ [.desel] }) ∧
    (s.seld = false → microOp .stall s = .next { s with
      ph := s.ph + 1, trace := s.trace ++ [.delay s.cfg.tStallUs] }) ∧
    (∀ t, s.seld = true → microOp .sel s ≠ .next t ∧ microOp .stall s ≠ .next t) ∧
    (∀ t, s.seld = false → microOp .desel s ≠ .next t ∧
      ∀ o k, microOp (.tx o) s ≠ .next t ∧ microOp (.xr o k) s ≠ .next t) ∧
    (∀ m, s.Inv → s.busy = true → s.program[s.ph]? = some m →
      (s.seld = false ↔ m = .sel ∨ m = .stall))

/-- R112: the four micro-programs, with the bytes of WRITE's two words. -/
def Obligations.MicroProgramTable : Prop :=
  ∀ (a : Addr) (d : Word16),
    prog .read a d =
      [.sel, .tx (a.setWidth 8), .tx 0, .desel, .stall, .sel, .xr 0 0, .xr 0 1, .desel, .stall] ∧
    prog .write a d =
      [.sel, .tx (hiByte (lowWord a d)), .tx (loByte (lowWord a d)), .desel, .stall,
       .sel, .tx (hiByte (highWord a d)), .tx (loByte (highWord a d)), .desel, .stall] ∧
    prog .burstw a d =
      [.sel, .tx 0x68, .tx 0, .xr 0 0, .xr 0 1, .xr 0 2, .xr 0 3, .xr 0 4, .xr 0 5, .xr 0 6,
       .xr 0 7, .xr 0 8, .xr 0 9, .xr 0 10, .xr 0 11, .xr 0 12, .xr 0 13, .xr 0 14, .xr 0 15,
       .xr 0 16, .xr 0 17, .xr 0 18, .xr 0 19, .desel, .stall] ∧
    prog .burstb a d = prog .burstw a d

/-- R114: with a command in flight, a micro-op left and the transport answering, a step is that micro-op: one
event, `PH` one further, the latched command as it was. The last clause, `rsp = none`, is the model's own choice
and no rule of the spec (log 7, DESIGN CHOICE). -/
def Obligations.SequencerTakesOneMicroOpAStep : Prop :=
  ∀ s : State, s.Inv → s.busy = true → s.hostNow.rst = false → s.ph < s.program.length →
    s.waiting = false →
    ∃ m t e, s.program[s.ph]? = some m ∧ microOp m s.tick = .next t ∧ step s = .next t ∧
      t.ph = s.ph + 1 ∧ t.trace = s.trace ++ [e] ∧ e.isBus = true ∧ t.busy = true ∧
      t.op = s.op ∧ t.a = s.a ∧ t.d = s.d ∧ t.rsp = none

/-- R121, R229: without an answer the block stays as it is, still busy and still selected. The model's own
choices, not the spec's, which says only that the step is never enabled: that the hold is a next state in which the
transport loses the entry that stood for the missing answer (log 8, DEDUCED), and that `rsp` becomes none (log 7,
DESIGN CHOICE). -/
def Obligations.UnansweredTransferHoldsBlock : Prop :=
  ∀ s : State, s.busy = true → s.hostNow.rst = false → s.waiting = true →
    s.seld = true ∧
    ∃ o, (s.program[s.ph]? = some (.tx o) ∨ ∃ k, s.program[s.ph]? = some (.xr o k)) ∧
      (s.bus.transfer o).1 = none ∧
      step s = .next { s with bus := (s.bus.transfer o).2, rsp := none, host := s.host.tail }

/-- R115, R28: the end step delivers the response and clears `BUSY`, and nothing else changes. -/
def Obligations.EndStepDeliversResponse : Prop :=
  ∀ s : State, s.busy = true → s.hostNow.rst = false → s.ph = s.program.length →
    ∃ r, step s = .next { s with
        busy := false, rsp := some r, host := s.host.tail, trace := s.trace ++ [.rsp r] } ∧
      (s.op = .read → r = .rdVal (s.rx[0] ++ s.rx[1] : Word16).toInt) ∧
      (s.op = .write → r = .wrDone true) ∧
      (s.op = .burstw → ∃ w : Vector Int 10, ∃ ok, r = .burstWords w ok ∧
        (∀ j : Fin 10, w[j] = (s.rx[2 * j.val] ++ s.rx[2 * j.val + 1] : Word16).toInt) ∧
        ok = validBit (Vector.ofFn fun j : Fin 10 => s.rx[2 * j.val] ++ s.rx[2 * j.val + 1])) ∧
      (s.op = .burstb → r = .burstBytes s.rx)

/-- R38: with `BUSY = 1` a presented command has no effect: the step is the one without it, and the command
itself, executed then, changes nothing: `exec` of a command that is not accepted is the model's own (log 16,
DEDUCED). -/
def Obligations.BusyBlockIgnoresCommands : Prop :=
  ∀ s : State, s.busy = true →
    (∀ (r : Bool) (p : Port) (h : List HostIn),
      step { s with host := ⟨r, some p⟩ :: h } = step { s with host := ⟨r, none⟩ :: h }) ∧
    (∀ c : Instr, c.isCommand = true → exec c s = .next s)

/-- R97, R12: an unassigned opcode names no command, and presenting one changes no register, makes no event
and produces no response. The model's own choices, not the spec's: that the step is then a next state in which only
the host's input passes (log 15, log 23, DEDUCED), and that `rsp` becomes none, so that `rsp_valid` falls in the very
next step (log 7, DESIGN CHOICE); all are in `State.tick`. -/
def Obligations.UnassignedOpcodeDoesNothing : Prop :=
  ∀ (s : State) (p : Port), s.busy = false → s.hostNow = HostIn.present p →
    (p.op ∈ ([0x0, 0x7, 0xD, 0xE, 0xF] : List Opcode) →
      decodeCommand s.cfg.hasScl p = .error (.unassigned p.op) ∧ step s = .next s.tick) ∧
    (p.op ∈ ([0x8, 0x9, 0xA, 0xB, 0xC] : List Opcode) → s.cfg.hasScl = false →
      decodeCommand s.cfg.hasScl p = .error (.sclAbsent p.op) ∧ step s = .next s.tick)

/-- R96: wires a command does not read do not matter. -/
def Obligations.UnreadWiresAreIgnored : Prop :=
  ∀ (hasScl : Bool) (p q : Port), p.op = q.op →
    (p.op = 0x1 → p.addr = q.addr → decodeCommand hasScl p = decodeCommand hasScl q) ∧
    (p.op = 0x2 → p.addr = q.addr → p.data = q.data →
      decodeCommand hasScl p = decodeCommand hasScl q) ∧
    (p.op = 0x3 ∨ p.op = 0x4 → decodeCommand hasScl p = decodeCommand hasScl q) ∧
    (p.op = 0x5 ∨ p.op = 0x6 → p.words = q.words →
      decodeCommand hasScl p = decodeCommand hasScl q) ∧
    (p.op ∈ ([0x8, 0x9, 0xA, 0xB, 0xC] : List Opcode) → p.data = q.data →
      decodeCommand hasScl p = decodeCommand hasScl q) ∧
    ((∀ k : Fin 9, p.words[k.val] = q.words[k.val]) → cksum p.words = cksum q.words)

/-! ### A step runs the decoded instruction -/

/-- With `BUSY = 0` and a command on the port, a step starts that command: a pure command is done in it, and
`exec` of a bus command is that start and the sequencer's steps after it. -/
def Obligations.StepRunsPresentedCommand : Prop :=
  ∀ (s : State) (c : Instr), s.busy = false → s.hostNow.rst = false → s.presented = some c →
    step s = startCommand c s.tick ∧
    (stepCount c = 1 → step s = exec c s.tick) ∧
    (commandProgram c ≠ [] → ∃ t, step s = .next t ∧ exec c s.tick = runToEnd maxSteps t)

/-- Where `State.withFetchWord` puts an instruction, the next step takes it from: a command is on the port of an
idle block, a frame is next to be sent by the command in flight on a selected bus (log 12). -/
def Obligations.FetchWordIsNextInstruction : Prop :=
  ∀ (s : State) (nbits w : Nat) (i : Instr), decodeTableWord nbits w = some i →
    (i.isCommand = true → s.cfg.hasScl = true →
      (s.withFetchWord nbits w).busy = false ∧ (s.withFetchWord nbits w).hostNow.rst = false ∧
      (s.withFetchWord nbits w).presented = some i) ∧
    (i.isCommand = false →
      (s.withFetchWord nbits w).seld = true ∧ (s.withFetchWord nbits w).hostNow.rst = false ∧
      (s.withFetchWord nbits w).frameDue = some i ∧
      ((s.withFetchWord nbits w).bus.play (frameProgram i)).isSome = true)

/-- R119, R122: with the transport answering and no reset, the steps of the machine from acceptance to
response are `exec` of the command: 12 for READ and WRITE, 27 for the bursts, 1 for a pure command.
That `exec` is the whole command is the model's own form (log 10). -/
def Obligations.StepsOfACommandAreItsExec : Prop :=
  ∀ (s : State) (c : Instr), s.Quiescent → s.presented = some c → s.NoReset (stepCount c) →
    (s.bus.play (commandProgram c)).isSome = true →
    Host.Core.run core (stepCount c) s = exec c (s.ticks (stepCount c))

/-- R122: a bus command is in flight after each of its steps but the last. The clause `rsp = none`, also at `n = 1`,
is the model's own choice and no rule of the spec (log 7, DESIGN CHOICE). -/
def Obligations.BusCommandIsBusyUntilItsLastStep : Prop :=
  ∀ (s : State) (c : Instr) (n : Nat), s.Quiescent → s.presented = some c →
    s.NoReset (stepCount c) → commandProgram c ≠ [] →
    (s.bus.play (commandProgram c)).isSome = true → 0 < n → n < stepCount c →
    ∃ t, Host.Core.run core n s = .next t ∧ t.busy = true ∧ t.rsp = none

/-- R85, R114: where a frame is next to be sent by the command in flight, two steps of the machine are `exec` of
the frame. The frame as an instruction is the model's own form (log 11). -/
def Obligations.TwoStepsOfAFrameAreItsExec : Prop :=
  ∀ (s : State) (f : Instr), s.frameDue = some f → s.seld = true → s.NoReset 2 →
    (s.bus.play (frameProgram f)).isSome = true →
    Host.Core.run core 2 s = exec f (s.ticks 2)

/-- R118, R119: `exec` of a bus command makes the events and the response that the big-step form `run` gives for
the command and the bytes received, between its `Cmd` and its `Rsp`, and ends idle and deselected. -/
def Obligations.ExecAgreesWithBigStep : Prop :=
  ∀ (s : State) (c : Instr) (ins : List Byte) (b : Transport), s.Quiescent →
    commandProgram c ≠ [] → s.bus.play (commandProgram c) = some (ins, b) →
    ∃ ev r t, run s.cfg.tStallUs c ins = some (ev, r) ∧ exec c s = .next t ∧
      t.trace = s.trace ++ [.cmd c] ++ ev ++ [.rsp r] ∧ t.rsp = some r ∧ t.bus = b ∧ t.Quiescent

/-- R118: the bytes sent never depend on the bytes received. -/
def Obligations.SentBytesIgnoreReceivedBytes : Prop :=
  ∀ (s : State) (c : Instr) (b : Transport), s.Quiescent →
    (s.bus.play (commandProgram c)).isSome = true → (b.play (commandProgram c)).isSome = true →
    c.isCommand = true →
    ∃ t u, exec c s = .next t ∧ exec c { s with bus := b } = .next u ∧
      sensorView t.trace = sensorView u.trace

/-- R229: a bus command whose first transfer is not answered stays in flight with the bus selected. That `exec`
then answers a next state, and leaves the unanswered entry in the transport's list because it does not attempt the
transfer (`t.bus = s.bus`), is the model's own choice (log 8, DEDUCED). -/
def Obligations.UnansweredCommandStaysInFlight : Prop :=
  ∀ (s : State) (c : Instr) (xs : List (Option Byte)) (n : Nat), s.Quiescent →
    s.bus = .script (none :: xs) n → commandProgram c ≠ [] →
    ∃ t, exec c s = .next t ∧ t.busy = true ∧ t.seld = true ∧ t.ph = 1 ∧ t.rx = s.rx ∧
      t.bus = s.bus ∧ t.trace = s.trace ++ [.cmd c, .sel]

/-! ### Results and frames of the commands -/

/-- R141: READ(a) completes for every `a`, even or odd, with the two bytes of its second transaction as its
value, and changes `RX[0]`, `RX[1]`, `OP`, `A`, `PH` and nothing else of the block. -/
def Obligations.ReadReturnsSecondFrame : Prop :=
  ∀ (a : Addr) (s : State) (i0 i1 m l : Byte) (b : Transport), s.Quiescent →
    s.bus.play (prog .read a s.d) = some ([i0, i1, m, l], b) →
    exec (.read a) s = .next { s with
      op := .read, a := a, ph := 10, rx := (s.rx.set 0 m).set 1 l, bus := b,
      rsp := some (.rdVal (m ++ l : Word16).toInt),
      trace := s.trace ++
        [.cmd (.read a),
         .sel, .xfer (a.setWidth 8) i0, .xfer 0x00 i1, .desel, .delay s.cfg.tStallUs,
         .sel, .xfer 0x00 m, .xfer 0x00 l, .desel, .delay s.cfg.tStallUs,
         .rsp (.rdVal (m ++ l : Word16).toInt)] }

/-- R144, R146: WRITE(a, d) completes for every `a` and `d`: the low byte goes to `a`, then the high byte to
`a | 1`, `success` is 1, and nothing else of the block changes but `OP`, `A`, `D` and `PH`. -/
def Obligations.WriteSendsLowThenHighByte : Prop :=
  ∀ (a : Addr) (d : Word16) (s : State) (i0 i1 i2 i3 : Byte) (b : Transport), s.Quiescent →
    s.bus.play (prog .write a d) = some ([i0, i1, i2, i3], b) →
    exec (.write a d) s = .next { s with
      op := .write, a := a, d := d, ph := 10, bus := b, rsp := some (.wrDone true),
      trace := s.trace ++
        [.cmd (.write a d),
         .sel, .xfer (0x80 ||| a.setWidth 8) i0, .xfer (loByte d) i1, .desel,
         .delay s.cfg.tStallUs,
         .sel, .xfer (0x80 ||| a.setWidth 8 ||| 0x01) i2, .xfer (hiByte d) i3, .desel,
         .delay s.cfg.tStallUs,
         .rsp (.wrDone true)] }

/-- R161: BURSTW completes with the ten words of the twenty bytes after the trigger, and `ck_ok`. -/
def Obligations.BurstwReturnsTenWords : Prop :=
  ∀ (s : State) (t0 t1 : Byte) (v : Vector Byte 20) (b : Transport), s.Quiescent →
    s.bus.play (prog .burstw s.a s.d) = some (t0 :: t1 :: v.toList, b) →
    ∃ (w : Vector Int 10) (ok : Bool),
      (∀ j : Fin 10, w[j] = (v[2 * j.val] ++ v[2 * j.val + 1] : Word16).toInt) ∧
      ok = validBit (Vector.ofFn fun j : Fin 10 => v[2 * j.val] ++ v[2 * j.val + 1]) ∧
      exec .burstw s = .next { s with
        op := .burstw, ph := 25, rx := v, bus := b, rsp := some (.burstWords w ok),
        trace := s.trace ++
          ([.cmd .burstw, .sel, .xfer 0x68 t0, .xfer 0x00 t1] ++ v.toList.map (.xfer 0x00) ++
           [.desel, .delay s.cfg.tStallUs, .rsp (.burstWords w ok)]) }

/-- R163: BURSTB completes with the twenty bytes after the trigger, in the order received. -/
def Obligations.BurstbReturnsTwentyBytes : Prop :=
  ∀ (s : State) (t0 t1 : Byte) (v : Vector Byte 20) (b : Transport), s.Quiescent →
    s.bus.play (prog .burstb s.a s.d) = some (t0 :: t1 :: v.toList, b) →
    exec .burstb s = .next { s with
      op := .burstb, ph := 25, rx := v, bus := b, rsp := some (.burstBytes v),
      trace := s.trace ++
        ([.cmd .burstb, .sel, .xfer 0x68 t0, .xfer 0x00 t1] ++ v.toList.map (.xfer 0x00) ++
         [.desel, .delay s.cfg.tStallUs, .rsp (.burstBytes v)]) }

/-- R164: on the same answers the two forms make the same bus events, and BURSTW's words are BURSTB's bytes in
pairs. -/
def Obligations.BurstFormsAgree : Prop :=
  ∀ s : State, s.Quiescent → (s.bus.play (prog .burstw s.a s.d)).isSome = true →
    ∃ t u w ok v, exec .burstw s = .next t ∧ exec .burstb s = .next u ∧
      t.rsp = some (.burstWords w ok) ∧ u.rsp = some (.burstBytes v) ∧
      (∀ j : Fin 10, w[j] = (v[2 * j.val] ++ v[2 * j.val + 1] : Word16).toInt) ∧
      busTrace t.trace = busTrace u.trace

/-- R182, R185: CKSUM and VALID complete on an idle block, whatever the words, and write nothing. -/
def Obligations.ChecksumCommandsRespond : Prop :=
  ∀ (w : Words) (s : State), s.busy = false →
    exec (.cksum w) s = .next { s with
      rsp := some (.sum (cksumNine (Vector.ofFn fun k : Fin 9 => w[k.val]))),
      trace := s.trace ++ [.cmd (.cksum w),
        .rsp (.sum (cksumNine (Vector.ofFn fun k : Fin 9 => w[k.val])))] } ∧
    exec (.valid w) s = .next { s with
      rsp := some (.valid (decide (cksumNine (Vector.ofFn fun k : Fin 9 => w[k.val]) = w[9]))),
      trace := s.trace ++ [.cmd (.valid w),
        .rsp (.valid (decide (cksumNine (Vector.ofFn fun k : Fin 9 => w[k.val]) = w[9])))] }

/-- R200 to R205: with unit `SCL`, each SCALE command completes on an idle block for every `r`, with the one
rounding of the product of the exact integer and the rounded literal, and writes nothing. -/
def Obligations.ScaleCommandsRespond : Prop :=
  ∀ (r : Word16) (s : State), s.busy = false → s.cfg.hasScl = true →
    ∀ p ∈ [(Instr.scaleAccel r, (⟨125, 100000⟩ : ScaleConst)), (.scaleGyro r, ⟨1, 10⟩),
      (.scaleTemp r, ⟨1, 10⟩), (.scaleDang r, ⟨61, 1000⟩), (.scaleDvel r, ⟨1221, 100000⟩)],
      ∃ f, f = encodeFloat s.cfg.floatFmt
          (fmul s.cfg.floatFmt (convOf r) (litOf s.cfg.floatFmt p.2)) ∧
        exec p.1 s = .next { s with
          rsp := some (.scaled f), trace := s.trace ++ [.cmd p.1, .rsp (.scaled f)] }

/-- R12, R97: without unit `SCL` a SCALE command does nothing at all. That `exec` of one then answers the same state
is the model's own (log 17, DEDUCED). -/
def Obligations.ScaleCommandsAbsentWithoutUnit : Prop :=
  ∀ (i : Instr) (s : State), s.cfg.hasScl = false → i.needsScl = true → exec i s = .next s

/-! ### Frames -/

/-- R88, R85: on a selected bus a write frame completes: the byte `1, ADDR`, then the byte `DATA`; what is
received is kept nowhere, and nothing else changes. -/
def Obligations.WriteFramesSendAddressThenData : Prop :=
  ∀ (addr : Addr) (data : Byte) (s : State) (i j : Byte) (b : Transport), s.seld = true →
    s.bus.play [.tx (0x80 ||| addr.setWidth 8), .tx data] = some ([i, j], b) →
    ∀ f ∈ [Instr.wrLo addr data, .wrHi addr data],
      exec f s = .next { s with
        ph := s.ph + 2, bus := b,
        trace := s.trace ++ [.xfer (0x80 ||| addr.setWidth 8) i, .xfer data j] }

/-- R86, R87, R85: on a selected bus a request frame and a trigger frame complete: their two bytes go out, what
is received is kept nowhere, and nothing else changes. -/
def Obligations.RequestAndTriggerFramesSendTwoBytes : Prop :=
  ∀ (s : State) (i j : Byte) (b : Transport), s.seld = true →
    (∀ addr : Addr, s.bus.play [.tx (addr.setWidth 8), .tx 0x00] = some ([i, j], b) →
      exec (.rq addr) s = .next { s with
        ph := s.ph + 2, bus := b,
        trace := s.trace ++ [.xfer (addr.setWidth 8) i, .xfer 0x00 j] }) ∧
    (s.bus.play [.tx 0x68, .tx 0x00] = some ([i, j], b) →
      exec .trig s = .next { s with
        ph := s.ph + 2, bus := b, trace := s.trace ++ [.xfer 0x68 i, .xfer 0x00 j] })

/-- R83, R84: on a selected bus a fill frame completes; each byte received is kept where the response phase
of the command in flight keeps it, and nowhere else, and nothing else changes. -/
def Obligations.FillFrameKeepsResponseBytes : Prop :=
  ∀ (s : State) (i j : Byte) (b : Transport), s.seld = true →
    s.bus.play [.tx 0x00, .tx 0x00] = some ([i, j], b) →
    exec .fill s = .next { s with
      ph := s.ph + 2, bus := b,
      rx := keepByte (s.receiveIndex (s.ph + 1)) j (keepByte (s.receiveIndex s.ph) i s.rx),
      trace := s.trace ++ [.xfer 0x00 i, .xfer 0x00 j] }

/-- R111: a frame is not exchanged on a deselected bus (there the model faults: its own choice, log 9). -/
def Obligations.FramesNeedASelectedBus : Prop :=
  ∀ (f : Instr) (s : State), f.isCommand = false → s.seld = false →
    exec f s = .fault .notEnabled

/-- A frame whose first byte is not answered leaves the state alone, the transport included. R121 says only that
the step is never enabled; that `exec` of the frame answers a next state, and does not attempt the transfer, is the
model's own choice (log 8, DEDUCED), as is the frame as an instruction (log 11). -/
def Obligations.UnansweredFrameChangesNothing : Prop :=
  ∀ (f : Instr) (s : State) (xs : List (Option Byte)) (n : Nat), f.isCommand = false →
    s.seld = true → s.bus = .script (none :: xs) n → exec f s = .next s

/-! ### Encodings -/

/-- Decoding an encoded instruction gives it back, with every operand at every value. -/
def Obligations.DecodeOfEncode : Prop :=
  ∀ (hasScl : Bool) (i : Instr), i.wf hasScl = true → decode hasScl (encode i) = .ok i

/-- A word on the host port names at most one command, and only a well-formed one: what the decoder gives
encodes to the same opcode. -/
def Obligations.DecodedCommandIsWellFormed : Prop :=
  ∀ (hasScl : Bool) (p : Port) (i : Instr), decodeCommand hasScl p = .ok i →
    i.wf hasScl = true ∧ i.isCommand = true ∧
    ∃ q, encode i = .command q ∧ q.op = p.op ∧ decodeCommand hasScl q = .ok i

/-- R81, R101: the decoder of bus traces reads back from a bus command's events the frames it sends. This is about
the events of a whole command; what the decoder makes of an abandoned one is log 26. -/
def Obligations.BusTraceDecodesToFramesSent : Prop :=
  ∀ (us : Nat) (c : Instr) (ins : List Byte) (ev : List Event) (r : Response),
    run us c ins = some (ev, r) → decodeBusTrace ev = .ok (framesSent c)

/-- Words written out from the tables of R83 and R92 decode to what they stand for. By R100 and R101 the place of a
frame tells WR.LO from WR.HI and FILL and TRIG from RQ; that here the word alone does is the model's own choice
(log 12, DESIGN CHOICE). -/
def Obligations.TableWordsDecode : Prop :=
  decodeTableWord 8 0x1 = some (.read 0) ∧ decodeTableWord 8 0x2 = some (.write 0 0) ∧
  decodeTableWord 8 0x3 = some .burstw ∧ decodeTableWord 8 0x4 = some .burstb ∧
  decodeTableWord 8 0x8 = some (.scaleAccel 0) ∧ decodeTableWord 8 0xC = some (.scaleDvel 0) ∧
  decodeTableWord 8 0x0 = none ∧ decodeTableWord 8 0x7 = none ∧
  decodeTableWord 16 0xE034 = some (.wrLo 0x60 0x34) ∧
  decodeTableWord 16 0xE112 = some (.wrHi 0x61 0x12) ∧
  decodeTableWord 16 0x6000 = some (.rq 0x60) ∧
  decodeTableWord 16 0x0000 = some .fill ∧ decodeTableWord 16 0x6800 = some .trig

/-- R88: the formulas of `addrWord`, `lowWord` and `highWord`; that they are `1, a, 0x00`, `1, a, d[7:0]` and
`1, (a | 1), d[15:8]`; that the mask changes nothing and the shift loses nothing; that `a | 1` is `a + 1` exactly
when `a` is even; and the source's worked example. -/
def Obligations.WriteWordLayout : Prop :=
  (∀ (a : Addr) (d : Word16),
    addrWord a = ((a.setWidth 16 &&& 0x007F) ||| 0x0080) <<< 8 ∧
    lowWord a d = addrWord a ||| (d.extractLsb' 0 8).setWidth 16 ∧
    highWord a d = addrWord a ||| 0x0100 ||| (d.extractLsb' 8 8).setWidth 16 ∧
    addrWord a = (1#1 ++ a ++ 0x00#8 : BitVec 16) ∧
    lowWord a d = (1#1 ++ a ++ d.extractLsb' 0 8 : BitVec 16) ∧
    highWord a d = (1#1 ++ (a ||| 1) ++ d.extractLsb' 8 8 : BitVec 16) ∧
    a.setWidth 16 &&& 0x007F = (a.setWidth 16 : BitVec 16) ∧
    (addrWord a).toNat = (0x80 + a.toNat) * 256 ∧
    (a ||| 1 = a + 1 ↔ a.getLsbD 0 = false)) ∧
  addrWord 0x60 = 0xE000 ∧ lowWord 0x60 0x1234 = 0xE034 ∧ highWord 0x60 0x1234 = 0xE112

/-- R145: for an odd `a` both write words carry the same address byte `0x80 | a`. -/
def Obligations.OddWriteSendsOneAddressTwice : Prop :=
  ∀ (a : Addr) (d : Word16), a.getLsbD 0 = true →
    addrWord a ||| 0x0100 = addrWord a ∧
    hiByte (lowWord a d) = 0x80 ||| a.setWidth 8 ∧
    hiByte (highWord a d) = 0x80 ||| a.setWidth 8 ∧
    loByte (lowWord a d) = loByte d ∧ loByte (highWord a d) = hiByte d

/-- R87, R86, R100: the request word is the address byte and `0x00`, with bit 15 clear; the trigger is the request
of `0x68`, and the fill word that of `0x00`. -/
def Obligations.RequestWordLayout : Prop :=
  (∀ a : Addr, hiByte (rqWord a) = a.setWidth 8 ∧ loByte (rqWord a) = 0x00 ∧
    frameWr (rqWord a) = false ∧ frameAddr (rqWord a) = a) ∧
  rqWord 0x60 = 0x6000 ∧ rqWord 0x68 = trigWord ∧ rqWord 0x00 = fillWord ∧
  hiByte trigWord = 0x68 ∧ loByte trigWord = 0x00

/-- R80, R125: the transactions and the event counts of each bus command. -/
def Obligations.TransactionsAndEventCounts : Prop :=
  ∀ (us : Nat) (c : Instr) (ins : List Byte) (ev : List Event) (r : Response),
    run us c ins = some (ev, r) →
    ∃ ts, transactions none ev = .ok ts ∧
      (((∃ a, c = .read a) ∨ ∃ a d, c = .write a d) ∧
          ts.map List.length = [2, 2] ∧ countEvents (· == .sel) ev = 2 ∧
          countEvents Event.isXfer ev = 4 ∧ countEvents (· == .desel) ev = 2 ∧
          countEvents Event.isDelay ev = 2 ∨
        (c = .burstw ∨ c = .burstb) ∧
          ts.map List.length = [22] ∧ countEvents (· == .sel) ev = 1 ∧
          countEvents Event.isXfer ev = 22 ∧ countEvents (· == .desel) ev = 1 ∧
          countEvents Event.isDelay ev = 1)

/-! ### Values -/

/-- R89: the value of a READ, as a two's-complement number, with the rule's example. -/
def Obligations.ReadAssembly : Prop :=
  (∀ m l : Byte, asS16 (assembleWord m l) =
    if m.toNat < 128 then (m.toNat * 256 + l.toNat : Int)
    else (m.toNat * 256 + l.toNat : Int) - 65536) ∧
  asS16 (assembleWord 0xFF 0x85) = -123

/-- R181: the checksum is the loop over the nine words that adds the low and the high byte of each to a 16-bit
accumulator; in closed form the sum of the eighteen bytes modulo 65536, added in any order. -/
def Obligations.ChecksumIsByteSum : Prop :=
  ∀ w : Vector Word16 9,
    cksumNine w = (List.finRange 9).foldl
      (fun s j => s + (w[j].extractLsb' 0 8).setWidth 16 + (w[j].extractLsb' 8 8).setWidth 16) 0 ∧
    ∀ bs : List Byte, bs.Perm (bytesOf w) →
      (cksumNine w).toNat = (bs.map BitVec.toNat).sum % 65536

/-- R183: the sum of eighteen bytes never wraps, is at most `0x11EE`, leaves bits 15:13 at 0, and reaches both
ends of its range. -/
def Obligations.ChecksumNeverWraps : Prop :=
  (∀ w : Vector Word16 9,
    (cksumNine w).toNat = ((bytesOf w).map BitVec.toNat).sum ∧
    (cksumNine w).toNat ≤ 0x11EE ∧ (cksumNine w).extractLsb' 13 3 = 0#3) ∧
  cksumNine (Vector.replicate 9 0x0000) = 0x0000 ∧
  cksumNine (Vector.replicate 9 0xFFFF) = 0x11EE

/-- R188: the checksum depends only on the multiset of the eighteen bytes, and is their sum modulo 65536; with the
example's elided words taken as zero, `0x41`. -/
def Obligations.ChecksumIsPermutationInvariant : Prop :=
  (∀ u v : Vector Word16 9, (bytesOf u).Perm (bytesOf v) → cksumNine u = cksumNine v) ∧
  (∀ w : Vector Word16 9, (cksumNine w).toNat = ((bytesOf w).map BitVec.toNat).sum % 65536) ∧
  cksumNine #v[0x4000, 0x0001, 0, 0, 0, 0, 0, 0, 0] = 0x0041

/-- R184, R190: a sample is valid exactly when the sum of its first nine words is the pattern of the tenth; one
whose tenth word has any of bits 15:13 set never is. -/
def Obligations.ValidComparesPatterns : Prop :=
  ∀ w : Words,
    (validBit w = true ↔ cksumNine (Vector.ofFn fun k : Fin 9 => w[k.val]) = w[9]) ∧
    (w[9].extractLsb' 13 3 ≠ 0#3 → validBit w = false)

/-- R189: `valid` rejects a corruption of a valid sample exactly when it changes the checksum less the tenth
word; a corruption of the fifth word alone exactly when it changes the sum of its two bytes. -/
def Obligations.ValidDetectsExactlySumChanges : Prop :=
  (∀ w v : Words, validBit w = true →
    (validBit v = false ↔ cksum v - v[9] ≠ cksum w - w[9])) ∧
  (∀ (w : Words) (x : Word16), validBit w = true →
    (validBit (w.set 4 x) = false ↔
      (loByte x).toNat + (hiByte x).toNat ≠ (loByte w[4]).toNat + (hiByte w[4]).toNat))

/-- R208: no SCALE result is an infinity or a NaN, in either format, and `r = 0` gives +0. Rests on the rounding
of log 14. -/
def Obligations.ScaleResultsAreFinite : Prop :=
  ∀ (f : FloatFmt), ∀ c ∈ scaleConsts,
    (∀ r : Word16, (scaleBy f c r).isFinite = true) ∧
    scaleBy f c 0 = match f with
      | .binary32 => .b32 0
      | .binary64 => .b64 0

/-! ### The test fixture -/

/-- R68, R53: on `DEVSTUB`, a WRITE to an even address followed by a READ of it returns the value written; but
for `a = 0x68`, whose request frame is the burst trigger (R100), so that the fixture latches nothing. This is
about the fixture and says nothing of the chip. -/
def Obligations.FixtureReadsBackWrittenValue : Prop :=
  ∀ (a : Addr) (d : Word16) (s : State) (dev : DevStub), s.Quiescent → s.bus = .stub dev →
    Memory.wf dev.mem = true → a.getLsbD 0 = false →
    ∃ t u, exec (.write a d) s = .next t ∧ exec (.read a) t = .next u ∧
      u.rsp = some (.rdVal (if a = 0x68 then 0 else d.toInt))
end

