-- ==== Sys2Proof/Laws/DevStub.lean ====
section
/-! SUPPORT. What the fixture answers and becomes, case by case (spec/20_memory.md R68). -/

namespace Sys2Proof.Machine

/-- The first byte of a frame. -/
theorem stubXfer_first {o : Byte} {d : DevStub} (hb : d.burst = false) (hn : d.count % 2 = 0) :
    stubXfer o d =
      (hiByte d.latch, { d with cur := d.latch, held := o, count := d.count + 1 }) := by
  simp [stubXfer, hb, hn]

/-- The second byte of a write frame. -/
theorem stubXfer_write {o : Byte} {d : DevStub} (hb : d.burst = false) (hn : d.count % 2 = 1)
    (hw : d.held.getLsbD 7 = true) :
    stubXfer o d =
      (loByte d.cur,
        { d with
          mem := Memory.write d.mem (d.held.setWidth 7).toNat o, latch := 0,
          count := d.count + 1 }) := by
  simp [stubXfer, hb, hn, hw]

/-- The second byte of the burst trigger. -/
theorem stubXfer_trigger {d : DevStub} (hb : d.burst = false) (hn : d.count = 1)
    (hh : d.held = 0x68) :
    stubXfer 0x00 d = (loByte d.cur, { d with burst := true, count := d.count + 1 }) := by
  simp [stubXfer, hb, hn, hh]

/-- The second byte of a read request. -/
theorem stubXfer_request {o : Byte} {d : DevStub} (hb : d.burst = false) (hn : d.count % 2 = 1)
    (hw : d.held.getLsbD 7 = false) (ht : ¬(d.count = 1 ∧ d.held = 0x68 ∧ o = 0x00)) :
    stubXfer o d =
      (loByte d.cur,
        { d with
          latch := stubRegister d.mem (d.held.setWidth 7), count := d.count + 1 }) := by
  simp only [stubXfer, hb, hn, hw, ht, if_false, Bool.false_eq_true, one_ne_zero]

/-- A byte of a burst. -/
theorem stubXfer_burst {o : Byte} {d : DevStub} (hb : d.burst = true) :
    stubXfer o d =
      ((stubStream d.src).getD (d.count - 2) 0x00, { d with count := d.count + 1 }) := by
  simp [stubXfer, hb]

end Sys2Proof.Machine
end

