-- ==== Sys2Proof/Laws/Float.lean ====
section
/-! SUPPORT. What the rounding of Machine/Float.lean can give: the rounded significand fits the format, and
the exponent of the last place is bounded by the sizes of numerator and denominator. -/

namespace Sys2Proof.Machine

theorem divNearestEven_le (num den : Nat) : divNearestEven num den ≤ num / den + 1 := by
  unfold divNearestEven
  simp only
  split <;> omega

theorem floorLog2_le (num den : Nat) :
    floorLog2 num den ≤ (Nat.log2 num : Int) - (Nat.log2 den : Int) := by
  unfold floorLog2
  simp only
  split <;> omega

/-- `(2 : ℚ) ^ z` as a quotient of two natural powers. -/
theorem two_zpow_eq (z : Int) : (2 : ℚ) ^ z = 2 ^ z.toNat / 2 ^ (-z).toNat := by
  rcases le_total 0 z with h | h
  · rw [Int.toNat_of_nonpos (by omega : -z ≤ 0), pow_zero, div_one]
    conv_lhs => rw [← Int.toNat_of_nonneg h]
    exact zpow_natCast 2 z.toNat
  · rw [Int.toNat_of_nonpos h, pow_zero, one_div]
    conv_lhs => rw [← neg_neg z, ← Int.toNat_of_nonneg (by omega : 0 ≤ -z)]
    rw [zpow_neg, zpow_natCast]

/-- The quotient lies below the next power of two. -/
theorem lt_two_zpow_floorLog2 {num den : Nat} (hd : 0 < den) :
    (num : ℚ) / den < 2 ^ (floorLog2 num den + 1) := by
  have hden : (0 : ℚ) < den := by exact_mod_cast hd
  unfold floorLog2
  simp only
  split
  · have h1 : num < 2 ^ (Nat.log2 num + 1) := Nat.lt_log2_self
    have h2 : 2 ^ Nat.log2 den ≤ den := Nat.log2_self_le (by omega)
    have h1' : (num : ℚ) < 2 ^ (Nat.log2 num + 1) := by exact_mod_cast h1
    have h2' : (2 : ℚ) ^ Nat.log2 den ≤ den := by exact_mod_cast h2
    have e : (2 : ℚ) ^ ((Nat.log2 num : Int) - (Nat.log2 den : Int) + 1) =
        2 ^ (Nat.log2 num + 1) / 2 ^ Nat.log2 den := by
      rw [show (Nat.log2 num : Int) - (Nat.log2 den : Int) + 1 =
        ((Nat.log2 num + 1 : Nat) : Int) - (Nat.log2 den : Int) by push_cast; ring,
        zpow_sub₀ (by norm_num), zpow_natCast, zpow_natCast]
    rw [e, div_lt_div_iff₀ hden (by positivity)]
    exact mul_lt_mul h1' h2' (by positivity) (by positivity)
  · next h =>
    rw [sub_add_cancel, two_zpow_eq, div_lt_div_iff₀ hden (by positivity)]
    have h := not_le.1 h
    have h' : ((num * 2 ^ (-((Nat.log2 num : Int) - (Nat.log2 den : Int))).toNat : Nat) : ℚ) <
        ((den * 2 ^ ((Nat.log2 num : Int) - (Nat.log2 den : Int)).toNat : Nat) : ℚ) := by
      exact_mod_cast h
    push_cast at h'
    linarith [mul_comm (den : ℚ) (2 ^ ((Nat.log2 num : Int) - (Nat.log2 den : Int)).toNat)]

theorem le_quantumExp (f : FloatFmt) (num den : Nat) :
    floorLog2 num den - ((fmtPrec f : Int) - 1) ≤ quantumExp f num den := le_max_left _ _

theorem fmtMinExp_le_quantumExp (f : FloatFmt) (num den : Nat) :
    fmtMinExp f ≤ quantumExp f num den := le_max_right _ _

/-- The exponent of the last place, bounded by sizes. -/
theorem quantumExp_le (f : FloatFmt) (num den : Nat) {b : Int} (hb : fmtMinExp f ≤ b)
    (h : (Nat.log2 num : Int) - (Nat.log2 den : Int) - ((fmtPrec f : Int) - 1) ≤ b) :
    quantumExp f num den ≤ b :=
  max_le ((sub_le_sub_right (floorLog2_le num den) _).trans h) hb

/-- The rounded significand is at most the next power of two: rounding up may carry. -/
theorem roundTo_mant_le (f : FloatFmt) (neg : Bool) (num : Nat) {den : Nat} (hd : 0 < den) :
    (roundTo f neg num den).mant ≤ 2 ^ fmtPrec f := by
  unfold roundTo
  split
  · exact Nat.zero_le _
  · simp only
    refine (divNearestEven_le _ _).trans (Nat.succ_le_of_lt ?_)
    have hden : (0 : ℚ) < den := by exact_mod_cast hd
    rw [Nat.div_lt_iff_lt_mul (by positivity)]
    have h1 := lt_two_zpow_floorLog2 (num := num) hd
    have h2 : (2 : ℚ) ^ (floorLog2 num den + 1) ≤
        2 ^ ((fmtPrec f : Int) + quantumExp f num den) :=
      zpow_le_zpow_right₀ (by norm_num) (by have := le_quantumExp f num den; omega)
    have h3 := h1.trans_le h2
    rw [zpow_add₀ (by norm_num), zpow_natCast, two_zpow_eq (quantumExp f num den),
      div_lt_iff₀ hden] at h3
    have hp : (0 : ℚ) < 2 ^ (-quantumExp f num den).toNat := by positivity
    have h4 := (mul_lt_mul_of_pos_right h3 hp)
    have h5 : (num : ℚ) * 2 ^ (-quantumExp f num den).toNat <
        2 ^ fmtPrec f * (den * 2 ^ (quantumExp f num den).toNat) := by
      refine h4.trans_eq ?_
      field_simp
    exact_mod_cast h5

theorem roundTo_exp (f : FloatFmt) (neg : Bool) {num : Nat} (den : Nat) (hn : num ≠ 0) :
    (roundTo f neg num den).exp = quantumExp f num den := by
  simp [roundTo, hn]

/-- Zero rounds to zero, whatever the sign asked for. -/
theorem roundTo_zero (f : FloatFmt) (neg : Bool) (den : Nat) :
    roundTo f neg 0 den = { neg := neg, mant := 0, exp := 0 } := rfl

end Sys2Proof.Machine
end

