-- ==== Sys2Proof/Laws/Memory.lean ====
section
/-! SUPPORT. The laws of byte memory: read after write, and the canonical form, which every write keeps
and which makes equal contents equal data. -/

namespace Sys2Proof.Machine

theorem Memory.cons_read (a k : Nat) (b : Byte) (m : Memory) :
    Memory.read (Memory.cons a b m) k =
      if k = a then (if b = Memory.unlisted then Memory.read m k else b) else Memory.read m k := by
  unfold Memory.cons
  by_cases hb : b = Memory.unlisted
  · simp [hb]
  · by_cases hk : k = a
    · simp [hb, hk, Memory.read]
    · simp [hb, hk, Memory.read, Ne.symm hk]

/-- Every entry of a canonical memory lies above a bound that lies below its first entry. -/
theorem Memory.read_of_below {m : Memory} {a : Nat} (h : m.all (fun c => a < c.1) = true) :
    Memory.read m a = Memory.unlisted := by
  induction m with
  | nil => rfl
  | cons c m ih =>
    obtain ⟨k, v⟩ := c
    simp only [List.all_cons, Bool.and_eq_true, decide_eq_true_eq] at h
    have : k ≠ a := by omega
    simp [Memory.read, this, ih h.2]

theorem Memory.all_lt_of_lt {m : Memory} {a k : Nat} (hak : a < k)
    (h : m.all (fun c => k < c.1) = true) : m.all (fun c => a < c.1) = true := by
  simp only [List.all_eq_true, decide_eq_true_eq] at h ⊢
  intro c hc
  exact lt_trans hak (h c hc)

theorem Memory.wf_cons {k : Nat} {v : Byte} {m : Memory} :
    Memory.wf ((k, v) :: m) = true ↔
      k < Memory.size ∧ v ≠ Memory.unlisted ∧ m.all (fun c => k < c.1) = true ∧
        Memory.wf m = true := by
  simp only [Memory.wf, Bool.and_eq_true, decide_eq_true_eq, bne_iff_ne, and_assoc]

/-- A read after a write. -/
theorem Memory.read_write {m : Memory} (hm : Memory.wf m = true) (a k : Nat) (b : Byte) :
    Memory.read (Memory.write m a b) k = if k = a then b else Memory.read m k := by
  induction m with
  | nil =>
    simp only [Memory.write, Memory.cons_read, Memory.read]
    by_cases hk : k = a <;> by_cases hb : b = Memory.unlisted <;> simp [hk, hb]
  | cons c m ih =>
    obtain ⟨k', v⟩ := c
    obtain ⟨-, -, hall, hwf⟩ := Memory.wf_cons.1 hm
    unfold Memory.write
    split
    · next hlt =>
      rw [Memory.cons_read]
      have hbelow : Memory.read ((k', v) :: m) a = Memory.unlisted :=
        Memory.read_of_below (by simp [hlt, Memory.all_lt_of_lt hlt hall])
      by_cases hk : k = a
      · subst hk
        by_cases hb : b = Memory.unlisted <;> simp [hb, hbelow]
      · simp [hk]
    · split
      · next h =>
        subst h
        rw [Memory.cons_read]
        by_cases hk : k = a
        · subst hk
          by_cases hb : b = Memory.unlisted <;> simp [hb, Memory.read_of_below hall]
        · simp [hk, Memory.read, Ne.symm hk]
      · next h =>
        simp only [Memory.read, ih hwf]
        by_cases hk : k' = k
        · subst hk
          simp [Ne.symm h]
        · simp [hk]

theorem Memory.cons_all {m : Memory} {a k : Nat} {b : Byte} (hka : k < a)
    (hm : m.all (fun c => k < c.1) = true) :
    (Memory.cons a b m).all (fun c => k < c.1) = true := by
  unfold Memory.cons
  split
  · exact hm
  · simp [hka, hm]

theorem Memory.write_all {m : Memory} {a k : Nat} {b : Byte} (hka : k < a)
    (hm : m.all (fun c => k < c.1) = true) :
    (Memory.write m a b).all (fun c => k < c.1) = true := by
  induction m with
  | nil => exact Memory.cons_all hka rfl
  | cons c m ih =>
    obtain ⟨k', v⟩ := c
    have hm' : k < k' ∧ m.all (fun c => k < c.1) = true := by
      simpa only [List.all_cons, Bool.and_eq_true, decide_eq_true_eq] using hm
    unfold Memory.write
    split
    · exact Memory.cons_all hka hm
    · split
      · exact Memory.cons_all hka hm'.2
      · simp [hm'.1, ih hm'.2]

theorem Memory.cons_wf {m : Memory} {a : Nat} {b : Byte} (ha : a < Memory.size)
    (hall : m.all (fun c => a < c.1) = true) (hm : Memory.wf m = true) :
    Memory.wf (Memory.cons a b m) = true := by
  unfold Memory.cons
  split
  · exact hm
  · next hb => exact Memory.wf_cons.2 ⟨ha, hb, hall, hm⟩

/-- A write inside the address space keeps the canonical form. -/
theorem Memory.write_wf {m : Memory} {a : Nat} (b : Byte) (ha : a < Memory.size)
    (hm : Memory.wf m = true) : Memory.wf (Memory.write m a b) = true := by
  induction m with
  | nil => exact Memory.cons_wf ha rfl rfl
  | cons c m ih =>
    obtain ⟨k, v⟩ := c
    obtain ⟨hk, hv, hall, hwf⟩ := Memory.wf_cons.1 hm
    unfold Memory.write
    split
    · next hlt =>
      exact Memory.cons_wf ha (by simp [hlt, Memory.all_lt_of_lt hlt hall]) hm
    · split
      · next h => exact Memory.cons_wf ha (h ▸ hall) hwf
      · next h1 h2 =>
        exact Memory.wf_cons.2 ⟨hk, hv, Memory.write_all (by omega) hall, ih hwf⟩

/-- Two canonical memories with the same contents are the same data. -/
theorem Memory.ext_of_wf {m n : Memory} (hm : Memory.wf m = true) (hn : Memory.wf n = true)
    (h : ∀ a, Memory.read m a = Memory.read n a) : m = n := by
  induction m generalizing n with
  | nil =>
    cases n with
    | nil => rfl
    | cons c n =>
      obtain ⟨k, v⟩ := c
      obtain ⟨-, hv, -, -⟩ := Memory.wf_cons.1 hn
      exact absurd (by simpa [Memory.read] using (h k).symm) hv
  | cons c m ih =>
    obtain ⟨k, v⟩ := c
    obtain ⟨-, hv, hall, hwf⟩ := Memory.wf_cons.1 hm
    cases n with
    | nil => exact absurd (by simpa [Memory.read] using h k) hv
    | cons c' n =>
      obtain ⟨k', v'⟩ := c'
      obtain ⟨-, hv', hall', hwf'⟩ := Memory.wf_cons.1 hn
      have hkk : k = k' := by
        rcases lt_trichotomy k k' with hlt | heq | hlt
        · have hb : Memory.read ((k', v') :: n) k = Memory.unlisted :=
            Memory.read_of_below (by simp [hlt, Memory.all_lt_of_lt hlt hall'])
          exact absurd ((by simp [Memory.read] : v = _).trans ((h k).trans hb)) hv
        · exact heq
        · have hb : Memory.read ((k, v) :: m) k' = Memory.unlisted :=
            Memory.read_of_below (by simp [hlt, Memory.all_lt_of_lt hlt hall])
          exact absurd ((by simp [Memory.read] : v' = _).trans ((h k').symm.trans hb)) hv'
      subst hkk
      have hvv : v = v' := by simpa [Memory.read] using h k
      subst hvv
      refine congrArg _ (ih hwf hwf' fun a => ?_)
      by_cases ha : k = a
      · subst ha
        rw [Memory.read_of_below hall, Memory.read_of_below hall']
      · simpa [Memory.read, ha] using h a

end Sys2Proof.Machine
end

