-- ==== Sys2Proof/Laws/State.lean ====
section
/-! SUPPORT. What each update of the state does to each field, one lemma a field, so that no later proof
unfolds an update. -/

namespace Sys2Proof.Machine

/-! ### `State.emit` -/

@[simp] theorem State.emit_busy (s : State) (e : Event) : (s.emit e).busy = s.busy := rfl
@[simp] theorem State.emit_op (s : State) (e : Event) : (s.emit e).op = s.op := rfl
@[simp] theorem State.emit_a (s : State) (e : Event) : (s.emit e).a = s.a := rfl
@[simp] theorem State.emit_d (s : State) (e : Event) : (s.emit e).d = s.d := rfl
@[simp] theorem State.emit_ph (s : State) (e : Event) : (s.emit e).ph = s.ph := rfl
@[simp] theorem State.emit_seld (s : State) (e : Event) : (s.emit e).seld = s.seld := rfl
@[simp] theorem State.emit_rx (s : State) (e : Event) : (s.emit e).rx = s.rx := rfl
@[simp] theorem State.emit_cfg (s : State) (e : Event) : (s.emit e).cfg = s.cfg := rfl
@[simp] theorem State.emit_rsp (s : State) (e : Event) : (s.emit e).rsp = s.rsp := rfl
@[simp] theorem State.emit_host (s : State) (e : Event) : (s.emit e).host = s.host := rfl
@[simp] theorem State.emit_bus (s : State) (e : Event) : (s.emit e).bus = s.bus := rfl
@[simp] theorem State.emit_trace (s : State) (e : Event) : (s.emit e).trace = s.trace ++ [e] := rfl

/-! ### `State.advance` -/

@[simp] theorem State.advance_busy (s : State) : (s.advance).busy = s.busy := rfl
@[simp] theorem State.advance_op (s : State) : (s.advance).op = s.op := rfl
@[simp] theorem State.advance_a (s : State) : (s.advance).a = s.a := rfl
@[simp] theorem State.advance_d (s : State) : (s.advance).d = s.d := rfl
@[simp] theorem State.advance_ph (s : State) : (s.advance).ph = s.ph + 1 := rfl
@[simp] theorem State.advance_seld (s : State) : (s.advance).seld = s.seld := rfl
@[simp] theorem State.advance_rx (s : State) : (s.advance).rx = s.rx := rfl
@[simp] theorem State.advance_cfg (s : State) : (s.advance).cfg = s.cfg := rfl
@[simp] theorem State.advance_rsp (s : State) : (s.advance).rsp = s.rsp := rfl
@[simp] theorem State.advance_host (s : State) : (s.advance).host = s.host := rfl
@[simp] theorem State.advance_bus (s : State) : (s.advance).bus = s.bus := rfl
@[simp] theorem State.advance_trace (s : State) : (s.advance).trace = s.trace := rfl

/-! ### `State.setSeld` -/

@[simp] theorem State.setSeld_busy (s : State) (b : Bool) : (s.setSeld b).busy = s.busy := rfl
@[simp] theorem State.setSeld_op (s : State) (b : Bool) : (s.setSeld b).op = s.op := rfl
@[simp] theorem State.setSeld_a (s : State) (b : Bool) : (s.setSeld b).a = s.a := rfl
@[simp] theorem State.setSeld_d (s : State) (b : Bool) : (s.setSeld b).d = s.d := rfl
@[simp] theorem State.setSeld_ph (s : State) (b : Bool) : (s.setSeld b).ph = s.ph := rfl
@[simp] theorem State.setSeld_seld (s : State) (b : Bool) : (s.setSeld b).seld = b := rfl
@[simp] theorem State.setSeld_rx (s : State) (b : Bool) : (s.setSeld b).rx = s.rx := rfl
@[simp] theorem State.setSeld_cfg (s : State) (b : Bool) : (s.setSeld b).cfg = s.cfg := rfl
@[simp] theorem State.setSeld_rsp (s : State) (b : Bool) : (s.setSeld b).rsp = s.rsp := rfl
@[simp] theorem State.setSeld_host (s : State) (b : Bool) : (s.setSeld b).host = s.host := rfl
@[simp] theorem State.setSeld_bus (s : State) (b : Bool) : (s.setSeld b).bus = s.bus := rfl
@[simp] theorem State.setSeld_trace (s : State) (b : Bool) : (s.setSeld b).trace = s.trace := rfl

/-! ### `State.putRx` -/

@[simp] theorem State.putRx_busy (s : State) (k : Fin 20) (i : Byte) :
    (s.putRx k i).busy = s.busy :=
  rfl
@[simp] theorem State.putRx_op (s : State) (k : Fin 20) (i : Byte) : (s.putRx k i).op = s.op := rfl
@[simp] theorem State.putRx_a (s : State) (k : Fin 20) (i : Byte) : (s.putRx k i).a = s.a := rfl
@[simp] theorem State.putRx_d (s : State) (k : Fin 20) (i : Byte) : (s.putRx k i).d = s.d := rfl
@[simp] theorem State.putRx_ph (s : State) (k : Fin 20) (i : Byte) : (s.putRx k i).ph = s.ph := rfl
@[simp] theorem State.putRx_seld (s : State) (k : Fin 20) (i : Byte) :
    (s.putRx k i).seld = s.seld :=
  rfl
@[simp] theorem State.putRx_rx (s : State) (k : Fin 20) (i : Byte) :
    (s.putRx k i).rx = s.rx.set k.val i :=
  rfl
@[simp] theorem State.putRx_cfg (s : State) (k : Fin 20) (i : Byte) : (s.putRx k i).cfg = s.cfg :=
  rfl
@[simp] theorem State.putRx_rsp (s : State) (k : Fin 20) (i : Byte) : (s.putRx k i).rsp = s.rsp :=
  rfl
@[simp] theorem State.putRx_host (s : State) (k : Fin 20) (i : Byte) :
    (s.putRx k i).host = s.host :=
  rfl
@[simp] theorem State.putRx_bus (s : State) (k : Fin 20) (i : Byte) : (s.putRx k i).bus = s.bus :=
  rfl
@[simp] theorem State.putRx_trace (s : State) (k : Fin 20) (i : Byte) :
    (s.putRx k i).trace = s.trace :=
  rfl

/-! ### `State.setBus` -/

@[simp] theorem State.setBus_busy (s : State) (b : Transport) : (s.setBus b).busy = s.busy := rfl
@[simp] theorem State.setBus_op (s : State) (b : Transport) : (s.setBus b).op = s.op := rfl
@[simp] theorem State.setBus_a (s : State) (b : Transport) : (s.setBus b).a = s.a := rfl
@[simp] theorem State.setBus_d (s : State) (b : Transport) : (s.setBus b).d = s.d := rfl
@[simp] theorem State.setBus_ph (s : State) (b : Transport) : (s.setBus b).ph = s.ph := rfl
@[simp] theorem State.setBus_seld (s : State) (b : Transport) : (s.setBus b).seld = s.seld := rfl
@[simp] theorem State.setBus_rx (s : State) (b : Transport) : (s.setBus b).rx = s.rx := rfl
@[simp] theorem State.setBus_cfg (s : State) (b : Transport) : (s.setBus b).cfg = s.cfg := rfl
@[simp] theorem State.setBus_rsp (s : State) (b : Transport) : (s.setBus b).rsp = s.rsp := rfl
@[simp] theorem State.setBus_host (s : State) (b : Transport) : (s.setBus b).host = s.host := rfl
@[simp] theorem State.setBus_bus (s : State) (b : Transport) : (s.setBus b).bus = b := rfl
@[simp] theorem State.setBus_trace (s : State) (b : Transport) : (s.setBus b).trace = s.trace := rfl

/-! ### `State.respond` -/

@[simp] theorem State.respond_busy (s : State) (r : Response) : (s.respond r).busy = s.busy := rfl
@[simp] theorem State.respond_op (s : State) (r : Response) : (s.respond r).op = s.op := rfl
@[simp] theorem State.respond_a (s : State) (r : Response) : (s.respond r).a = s.a := rfl
@[simp] theorem State.respond_d (s : State) (r : Response) : (s.respond r).d = s.d := rfl
@[simp] theorem State.respond_ph (s : State) (r : Response) : (s.respond r).ph = s.ph := rfl
@[simp] theorem State.respond_seld (s : State) (r : Response) : (s.respond r).seld = s.seld := rfl
@[simp] theorem State.respond_rx (s : State) (r : Response) : (s.respond r).rx = s.rx := rfl
@[simp] theorem State.respond_cfg (s : State) (r : Response) : (s.respond r).cfg = s.cfg := rfl
@[simp] theorem State.respond_rsp (s : State) (r : Response) : (s.respond r).rsp = some r := rfl
@[simp] theorem State.respond_host (s : State) (r : Response) : (s.respond r).host = s.host := rfl
@[simp] theorem State.respond_bus (s : State) (r : Response) : (s.respond r).bus = s.bus := rfl
@[simp] theorem State.respond_trace (s : State) (r : Response) :
    (s.respond r).trace = s.trace ++ [.rsp r] :=
  rfl

/-! ### `State.tick` -/

@[simp] theorem State.tick_busy (s : State) : (s.tick).busy = s.busy := rfl
@[simp] theorem State.tick_op (s : State) : (s.tick).op = s.op := rfl
@[simp] theorem State.tick_a (s : State) : (s.tick).a = s.a := rfl
@[simp] theorem State.tick_d (s : State) : (s.tick).d = s.d := rfl
@[simp] theorem State.tick_ph (s : State) : (s.tick).ph = s.ph := rfl
@[simp] theorem State.tick_seld (s : State) : (s.tick).seld = s.seld := rfl
@[simp] theorem State.tick_rx (s : State) : (s.tick).rx = s.rx := rfl
@[simp] theorem State.tick_cfg (s : State) : (s.tick).cfg = s.cfg := rfl
@[simp] theorem State.tick_rsp (s : State) : (s.tick).rsp = none := rfl
@[simp] theorem State.tick_host (s : State) : (s.tick).host = s.host.tail := rfl
@[simp] theorem State.tick_bus (s : State) : (s.tick).bus = s.bus := rfl
@[simp] theorem State.tick_trace (s : State) : (s.tick).trace = s.trace := rfl

/-! ### `State.finish` -/

@[simp] theorem State.finish_busy (s : State) : (s.finish).busy = false := rfl
@[simp] theorem State.finish_op (s : State) : (s.finish).op = s.op := rfl
@[simp] theorem State.finish_a (s : State) : (s.finish).a = s.a := rfl
@[simp] theorem State.finish_d (s : State) : (s.finish).d = s.d := rfl
@[simp] theorem State.finish_ph (s : State) : (s.finish).ph = s.ph := rfl
@[simp] theorem State.finish_seld (s : State) : (s.finish).seld = s.seld := rfl
@[simp] theorem State.finish_rx (s : State) : (s.finish).rx = s.rx := rfl
@[simp] theorem State.finish_cfg (s : State) : (s.finish).cfg = s.cfg := rfl
@[simp] theorem State.finish_rsp (s : State) : (s.finish).rsp = some (responseOf s.op s.rx) := rfl
@[simp] theorem State.finish_host (s : State) : (s.finish).host = s.host := rfl
@[simp] theorem State.finish_bus (s : State) : (s.finish).bus = s.bus := rfl
@[simp] theorem State.finish_trace (s : State) :
    (s.finish).trace = s.trace ++ [.rsp (responseOf s.op s.rx)] :=
  rfl

/-! ### `State.doReset` -/

@[simp] theorem State.doReset_busy (s : State) : (s.doReset).busy = false := rfl
@[simp] theorem State.doReset_op (s : State) : (s.doReset).op = .read := rfl
@[simp] theorem State.doReset_a (s : State) : (s.doReset).a = 0 := rfl
@[simp] theorem State.doReset_d (s : State) : (s.doReset).d = 0 := rfl
@[simp] theorem State.doReset_ph (s : State) : (s.doReset).ph = 0 := rfl
@[simp] theorem State.doReset_seld (s : State) : (s.doReset).seld = false := rfl
@[simp] theorem State.doReset_rx (s : State) : (s.doReset).rx = Vector.replicate 20 0 := rfl
@[simp] theorem State.doReset_cfg (s : State) : (s.doReset).cfg = s.cfg := rfl
@[simp] theorem State.doReset_rsp (s : State) : (s.doReset).rsp = none := rfl
@[simp] theorem State.doReset_host (s : State) : (s.doReset).host = s.host := rfl
@[simp] theorem State.doReset_bus (s : State) : (s.doReset).bus = s.bus := rfl
@[simp] theorem State.doReset_trace (s : State) :
    (s.doReset).trace = s.trace ++ releaseBus s.seld :=
  rfl

@[simp] theorem releaseBus_true : releaseBus true = [.desel] := rfl
@[simp] theorem releaseBus_false : releaseBus false = [] := rfl

/-! ### `accept` -/

section
variable (op : BusOp) (c : Instr) (a : Addr) (d : Word16) (s : State)

@[simp] theorem accept_busy : (accept op c a d s).busy = true := rfl
@[simp] theorem accept_op : (accept op c a d s).op = op := rfl
@[simp] theorem accept_a : (accept op c a d s).a = a := rfl
@[simp] theorem accept_d : (accept op c a d s).d = d := rfl
@[simp] theorem accept_ph : (accept op c a d s).ph = 0 := rfl
@[simp] theorem accept_seld : (accept op c a d s).seld = s.seld := rfl
@[simp] theorem accept_rx : (accept op c a d s).rx = s.rx := rfl
@[simp] theorem accept_cfg : (accept op c a d s).cfg = s.cfg := rfl
@[simp] theorem accept_rsp : (accept op c a d s).rsp = s.rsp := rfl
@[simp] theorem accept_host : (accept op c a d s).host = s.host := rfl
@[simp] theorem accept_bus : (accept op c a d s).bus = s.bus := rfl
@[simp] theorem accept_trace : (accept op c a d s).trace = s.trace ++ [.cmd c] := rfl

end

/-! ### The micro-program in flight -/

section
variable (s : State)

@[simp] theorem State.emit_program (e : Event) : (s.emit e).program = s.program := rfl
@[simp] theorem State.advance_program : s.advance.program = s.program := rfl
@[simp] theorem State.setSeld_program (b : Bool) : (s.setSeld b).program = s.program := rfl
@[simp] theorem State.putRx_program (k : Fin 20) (i : Byte) : (s.putRx k i).program = s.program := rfl
@[simp] theorem State.setBus_program (b : Transport) : (s.setBus b).program = s.program := rfl
@[simp] theorem State.respond_program (r : Response) : (s.respond r).program = s.program := rfl
@[simp] theorem State.tick_program : s.tick.program = s.program := rfl
@[simp] theorem State.finish_program : s.finish.program = s.program := rfl
@[simp] theorem accept_program (op : BusOp) (c : Instr) (a : Addr) (d : Word16) :
    (accept op c a d s).program = prog op a d := rfl

end

/-! ### Where the invariants place a state -/

theorem State.busPlace_busy {s : State} (h : s.busy = true) : s.busPlace = phaseAfter s.done := by
  simp [State.busPlace, h]

theorem State.busPlace_idle {s : State} (h : s.busy = false) : s.busPlace = .ready := by
  simp [State.busPlace, h]

theorem State.portPlace_busy {s : State} (h : s.busy = true) : s.portPlace = .pending := by
  simp [State.portPlace, h]

theorem State.portPlace_idle {s : State} (h : s.busy = false) : s.portPlace = .answered := by
  simp [State.portPlace, h]

end Sys2Proof.Machine
end

