-- ==== Sys2Proof/Laws/Ops.lean ====
section
/-! SUPPORT. One lemma for each shared operation that says once everything it can do. -/

namespace Sys2Proof.Machine

/-! ### Transfers and micro-ops -/

theorem Transport.transfer_stub (o : Byte) (dev : DevStub) :
    (Transport.stub dev).transfer o = (some (stubXfer o dev).1, .stub (stubXfer o dev).2) := rfl

theorem Transport.transfer_script (o : Byte) (x : Option Byte) (xs : List (Option Byte)) (n : Nat) :
    (Transport.script (x :: xs) n).transfer o = (x, .script xs n) := rfl

/-- A transfer answers, or the block stays as it is (R111, R121). -/
theorem transferOp_next {o : Byte} {keep : Byte → State → State} {s t : State}
    (h : transferOp o keep s = .next t) :
    s.seld = true ∧
      ((∃ i, (s.bus.transfer o).1 = some i ∧
          t = ((keep i (s.setBus (s.bus.transfer o).2)).advance).emit (.xfer o i)) ∨
        ((s.bus.transfer o).1 = none ∧ t = s.setBus (s.bus.transfer o).2)) := by
  unfold transferOp at h
  split at h
  · next hs =>
    refine ⟨hs, ?_⟩
    split at h
    · next i b hb => cases h; exact .inl ⟨i, by rw [hb], by rw [hb]⟩
    · next b hb => cases h; exact .inr ⟨by rw [hb], by rw [hb]⟩
  · cases h

/-- Everything a micro-op can do (R111). -/
theorem microOp_next {m : MicroOp} {s t : State} (h : microOp m s = .next t) :
    (m = .sel ∧ s.seld = false ∧
        t = (((s.setBus s.bus.select).setSeld true).advance).emit .sel) ∨
    (m = .desel ∧ s.seld = true ∧ t = ((s.setSeld false).advance).emit .desel) ∨
    (m = .stall ∧ s.seld = false ∧ t = s.advance.emit (.delay s.cfg.tStallUs)) ∨
    (∃ o i, m = .tx o ∧ s.seld = true ∧ (s.bus.transfer o).1 = some i ∧
        t = ((s.setBus (s.bus.transfer o).2).advance).emit (.xfer o i)) ∨
    (∃ o k i, m = .xr o k ∧ s.seld = true ∧ (s.bus.transfer o).1 = some i ∧
        t = ((State.putRx k i (s.setBus (s.bus.transfer o).2)).advance).emit (.xfer o i)) ∨
    (∃ o, (m = .tx o ∨ ∃ k, m = .xr o k) ∧ s.seld = true ∧ (s.bus.transfer o).1 = none ∧
        t = s.setBus (s.bus.transfer o).2) := by
  cases m with
  | sel =>
    simp only [microOp] at h
    split at h
    · cases h
    · next hs => cases h; exact .inl ⟨rfl, by simpa using hs, rfl⟩
  | tx o =>
    have h : transferOp o (fun _ t => t) s = .next t := h
    obtain ⟨hs, ⟨i, hi, rfl⟩ | ⟨hn, rfl⟩⟩ := transferOp_next h
    · exact .inr (.inr (.inr (.inl ⟨o, i, rfl, hs, hi, rfl⟩)))
    · exact .inr (.inr (.inr (.inr (.inr ⟨o, .inl rfl, hs, hn, rfl⟩))))
  | xr o k =>
    have h : transferOp o (State.putRx k) s = .next t := h
    obtain ⟨hs, ⟨i, hi, rfl⟩ | ⟨hn, rfl⟩⟩ := transferOp_next h
    · exact .inr (.inr (.inr (.inr (.inl ⟨o, k, i, rfl, hs, hi, rfl⟩))))
    · exact .inr (.inr (.inr (.inr (.inr ⟨o, .inr ⟨k, rfl⟩, hs, hn, rfl⟩))))
  | desel =>
    simp only [microOp] at h
    split at h
    · next hs => cases h; exact .inr (.inl ⟨rfl, hs, rfl⟩)
    · cases h
  | stall =>
    simp only [microOp] at h
    split at h
    · cases h
    · next hs => cases h; exact .inr (.inr (.inl ⟨rfl, by simpa using hs, rfl⟩))

/-- When a micro-op takes a next state: exactly when its condition on `SELD` holds (R111). -/
theorem microOp_enabled (m : MicroOp) (s : State)
    (h : match m with
      | .sel | .stall => s.seld = false
      | .tx _ | .xr _ _ | .desel => s.seld = true) : ∃ t, microOp m s = .next t := by
  cases m <;> simp only at h <;> simp only [microOp, transferOp, h, if_true]
  · exact ⟨_, rfl⟩
  · split <;> exact ⟨_, rfl⟩
  · split <;> exact ⟨_, rfl⟩
  · exact ⟨_, rfl⟩
  · exact ⟨_, rfl⟩

/-! ### The sequencer and the step -/

/-- Everything the sequencer can do (R114, R115). -/
theorem sequencerStep_next {s t : State} (h : sequencerStep s = .next t) :
    (∃ m, s.program[s.ph]? = some m ∧ microOp m s = .next t) ∨
      (s.ph = s.program.length ∧ t = s.finish) := by
  unfold sequencerStep at h
  split at h
  · next m hm => exact .inl ⟨m, hm, h⟩
  · split at h
    · next hp => cases h; exact .inr ⟨hp, rfl⟩
    · cases h

/-- Everything a step can do. -/
theorem step_next {s t : State} (h : step s = .next t) :
    (s.hostNow.rst = true ∧ t = s.tick.doReset) ∨
    (s.hostNow.rst = false ∧ s.busy = true ∧ sequencerStep s.tick = .next t) ∨
    (s.hostNow.rst = false ∧ s.busy = false ∧ s.presented = none ∧ t = s.tick) ∨
    (∃ c, s.hostNow.rst = false ∧ s.busy = false ∧ s.presented = some c ∧
        startCommand c s.tick = .next t) := by
  unfold step at h
  split at h
  · next hr => cases h; exact .inl ⟨hr, rfl⟩
  · next hr =>
    have hr : s.hostNow.rst = false := by simpa using hr
    split at h
    · next hb => exact .inr (.inl ⟨hr, hb, h⟩)
    · next hb =>
      have hb : s.busy = false := by simpa using hb
      split at h
      · next c hc => exact .inr (.inr (.inr ⟨c, hr, hb, hc, h⟩))
      · next hc => cases h; exact .inr (.inr (.inl ⟨hr, hb, hc, rfl⟩))

/-- A pure command either does nothing or records `Cmd` and `Rsp` (R116). -/
theorem pureCommand_idle {c : Instr} {r : Response} {s : State} (h : s.busy = false) :
    pureCommand c r s = .next ((s.emit (.cmd c)).respond r) := by
  simp [pureCommand, h]

theorem pureCommand_busy {c : Instr} {r : Response} {s : State} (h : s.busy = true) :
    pureCommand c r s = .next s := by
  simp [pureCommand, h]

theorem scaleCommand_eq (c : Instr) (k : ScaleConst) (r : Word16) (s : State) :
    scaleCommand c k r s =
      if s.cfg.hasScl then pureCommand c (.scaled (scaleBy s.cfg.floatFmt k r)) s else .next s := rfl

theorem busCommand_idle {op : BusOp} {c : Instr} {a : Addr} {d : Word16} {s : State}
    (h : s.busy = false) : busCommand op c a d s = runToEnd maxSteps (accept op c a d s) := by
  simp [busCommand, h]

theorem busCommand_busy {op : BusOp} {c : Instr} {a : Addr} {d : Word16} {s : State}
    (h : s.busy = true) : busCommand op c a d s = .next s := by
  simp [busCommand, h]

/-- Everything starting a command of the port can do: acceptance of a bus command (R113), a pure command
(R116), or nothing. -/
theorem startCommand_next {c : Instr} {s t : State} (hb : s.busy = false)
    (h : startCommand c s = .next t) :
    (∃ op a d, t = accept op c a d s) ∨ (∃ r, t = (s.emit (.cmd c)).respond r) ∨ t = s := by
  have hs : ∀ (k : ScaleConst) (r : Word16), scaleCommand c k r s = .next t →
      (∃ r, t = (s.emit (.cmd c)).respond r) ∨ t = s := by
    intro k r h
    rw [scaleCommand_eq] at h
    split at h
    · rw [pureCommand_idle hb] at h; cases h; exact .inl ⟨_, rfl⟩
    · cases h; exact .inr rfl
  cases c with
  | read a => cases h; exact .inl ⟨_, _, _, rfl⟩
  | write a d => cases h; exact .inl ⟨_, _, _, rfl⟩
  | burstw => cases h; exact .inl ⟨_, _, _, rfl⟩
  | burstb => cases h; exact .inl ⟨_, _, _, rfl⟩
  | cksum w =>
    have h : pureCommand (.cksum w) _ s = .next t := h
    rw [pureCommand_idle hb] at h; cases h; exact .inr (.inl ⟨_, rfl⟩)
  | valid w =>
    have h : pureCommand (.valid w) _ s = .next t := h
    rw [pureCommand_idle hb] at h; cases h; exact .inr (.inl ⟨_, rfl⟩)
  | scaleAccel r => exact .inr (hs _ _ h)
  | scaleGyro r => exact .inr (hs _ _ h)
  | scaleTemp r => exact .inr (hs _ _ h)
  | scaleDang r => exact .inr (hs _ _ h)
  | scaleDvel r => exact .inr (hs _ _ h)
  | wrLo _ _ => cases h; exact .inr (.inr rfl)
  | wrHi _ _ => cases h; exact .inr (.inr rfl)
  | rq _ => cases h; exact .inr (.inr rfl)
  | fill => cases h; exact .inr (.inr rfl)
  | trig => cases h; exact .inr (.inr rfl)

/-- Starting a command of the port always gives a next state. -/
theorem startCommand_total (c : Instr) {s : State} (hb : s.busy = false) :
    ∃ t, startCommand c s = .next t := by
  cases c <;>
    simp only [startCommand, exec, execCksum, execValid, execScaleAccel, execScaleGyro,
      execScaleTemp, execScaleDang, execScaleDvel, scaleCommand_eq, pureCommand_idle hb] <;>
    first
    | exact ⟨_, rfl⟩
    | (split <;> exact ⟨_, rfl⟩)

/-! ### Words -/

theorem append_toNat (m l : Byte) : (m ++ l : Word16).toNat = m.toNat * 256 + l.toNat := by
  have h : (m ++ l : BitVec (8 + 8)).toNat = m.toNat <<< 8 ||| l.toNat := BitVec.toNat_append m l
  have h2 := Nat.shiftLeft_add_eq_or_of_lt l.isLt m.toNat
  have h3 : m.toNat <<< 8 = m.toNat * 256 := Nat.shiftLeft_eq _ _
  exact h.trans (by omega)

theorem hiByte_toNat (w : Word16) : (hiByte w).toNat = w.toNat / 256 := by
  have := w.isLt
  simp only [hiByte, BitVec.extractLsb'_toNat, Nat.shiftRight_eq_div_pow]
  omega

theorem loByte_toNat (w : Word16) : (loByte w).toNat = w.toNat % 256 := by
  simp [loByte, BitVec.extractLsb'_toNat]

@[simp] theorem hiByte_append (m l : Byte) : hiByte (m ++ l : Word16) = m := by
  have := m.isLt
  have := l.isLt
  exact BitVec.eq_of_toNat_eq (by rw [hiByte_toNat, append_toNat]; omega)

@[simp] theorem loByte_append (m l : Byte) : loByte (m ++ l : Word16) = l := by
  have := l.isLt
  exact BitVec.eq_of_toNat_eq (by rw [loByte_toNat, append_toNat]; omega)

theorem assembleWord_eq (m l : Byte) : assembleWord m l = m ++ l := by
  have hm := m.isLt
  have hl := l.isLt
  refine BitVec.eq_of_toNat_eq ?_
  rw [append_toNat]
  have h1 : ((m.setWidth 16 : Word16) <<< 8).toNat = m.toNat * 256 := by
    rw [BitVec.toNat_shiftLeft, BitVec.toNat_setWidth, Nat.shiftLeft_eq]; omega
  have h2 : ((l.setWidth 16 : Word16) &&& 0x00FF).toNat = l.toNat := by
    rw [BitVec.toNat_and, BitVec.toNat_setWidth]
    have : (l.toNat % 2 ^ 16) = l.toNat := by omega
    rw [this]
    exact (Nat.and_two_pow_sub_one_eq_mod l.toNat 8).trans (by omega)
  have h3 := Nat.shiftLeft_add_eq_or_of_lt hl m.toNat
  have h4 : m.toNat <<< 8 = m.toNat * 256 := Nat.shiftLeft_eq _ _
  rw [assembleWord, BitVec.toNat_or, h1, h2, ← h4, ← h3]

theorem append_hiByte_loByte (w : Word16) : (hiByte w ++ loByte w : Word16) = w := by
  refine BitVec.eq_of_toNat_eq ?_
  rw [append_toNat, hiByte_toNat, loByte_toNat]
  omega

/-- The ten words of the receive buffer, each its two bytes, the first in the high half (R27, R90). -/
theorem burstPatterns_eq (rx : Vector Byte 20) :
    burstPatterns rx =
      Vector.ofFn fun j : Fin 10 => (rx[2 * j.val] ++ rx[2 * j.val + 1] : Word16) :=
  congrArg Vector.ofFn (funext fun j => assembleWord_eq rx[2 * j.val] rx[2 * j.val + 1])

/-! ### Responses -/

theorem responseOf_read (rx : Vector Byte 20) :
    responseOf .read rx = .rdVal (rx[0] ++ rx[1] : Word16).toInt :=
  congrArg (fun w : Word16 => Response.rdVal w.toInt) (assembleWord_eq rx[0] rx[1])

theorem responseOf_write (rx : Vector Byte 20) : responseOf .write rx = .wrDone true := rfl

/-- The ten words of a BURSTW response and its `ck_ok`, by the bytes they are made of (R90, R170). -/
theorem responseOf_burstw (rx : Vector Byte 20) :
    responseOf .burstw rx =
      .burstWords (Vector.ofFn fun j : Fin 10 => (rx[2 * j.val] ++ rx[2 * j.val + 1] : Word16).toInt)
        (validBit (Vector.ofFn fun j : Fin 10 => rx[2 * j.val] ++ rx[2 * j.val + 1])) := by
  have h1 : (fun k => asS16 (wordView rx k)) =
      fun j : Fin 10 => (rx[2 * j.val] ++ rx[2 * j.val + 1] : Word16).toInt :=
    funext fun j => congrArg BitVec.toInt (assembleWord_eq rx[2 * j.val] rx[2 * j.val + 1])
  have h2 : ckOk rx = validBit (Vector.ofFn fun j : Fin 10 => rx[2 * j.val] ++ rx[2 * j.val + 1]) :=
    congrArg validBit (burstPatterns_eq rx)
  rw [← h1, ← h2]
  rfl

theorem responseOf_burstb (rx : Vector Byte 20) : responseOf .burstb rx = .burstBytes rx := rfl

end Sys2Proof.Machine
end

