-- ==== Sys2Proof/Laws/PerInstr.lean ====
section
/-! SUPPORT. For each instruction: the bits its code has in the opcode table's numbering are those its row
fixes (spec/opcode_table.json `mask` and `match`; spec/30_encoding.md R83, R92). -/

namespace Sys2Proof.Laws.TableBits

/-- The row's `mask`. -/
def mask : Instr → Word16
  | .read _ | .write _ _ | .burstw | .burstb | .cksum _ | .valid _ => 0x000F
  | .scaleAccel _ | .scaleGyro _ | .scaleTemp _ | .scaleDang _ | .scaleDvel _ => 0x000F
  | .wrLo _ _ | .wrHi _ _ => 0x8000
  | .rq _ => 0x80FF
  | .fill | .trig => 0xFFFF

/-- The row's `match`. -/
def pattern : Instr → Word16
  | .read _ => 0x1
  | .write _ _ => 0x2
  | .burstw => 0x3
  | .burstb => 0x4
  | .cksum _ => 0x5
  | .valid _ => 0x6
  | .scaleAccel _ => 0x8
  | .scaleGyro _ => 0x9
  | .scaleTemp _ => 0xA
  | .scaleDang _ => 0xB
  | .scaleDvel _ => 0xC
  | .wrLo _ _ | .wrHi _ _ => 0x8000
  | .rq _ => 0x0000
  | .fill => 0x0000
  | .trig => 0x6800

/-- The code of `i` has the fixed bits of its row. -/
def Statement (i : Instr) : Prop := codeBits (encode i) &&& mask i = pattern i

theorem bit15_of_wrWord (addr : Addr) (data : Byte) :
    Machine.wrWord addr data &&& 0x8000 = 0x8000 := by
  have hlast : (Machine.wrWord addr data).getLsbD 15 = true := by
    have h := BitVec.getLsbD_append (x := (1 : BitVec 1) ++ addr) (y := data) (i := 15)
    have h' := BitVec.getLsbD_append (x := (1 : BitVec 1)) (y := addr) (i := 7)
    exact h.trans (by simpa using h')
  refine BitVec.eq_of_getLsbD_eq fun i hi => ?_
  rw [BitVec.getLsbD_and]
  by_cases h15 : i = 15
  · subst h15; rw [hlast]; rfl
  · have : (0x8000 : Word16).getLsbD i = false := by interval_cases i <;> first | rfl | omega
    rw [this, Bool.and_false]

/-- A command's code shows its opcode in bits 3:0, whatever stands on the operand wires. -/
theorem of_opcode {i : Instr} {p : Port} (op : Opcode) (m : Word16) (he : encode i = .command p)
    (ho : p.op = op) (hm : mask i = 0x000F) (hp : pattern i = m)
    (h : op.setWidth 16 &&& 0x000F = m) : Statement i := by
  rw [Statement, he, codeBits, hm, hp, ho, h]

theorem read (a : Addr) : Statement (.read a) :=
  of_opcode 0x1 0x1 rfl rfl rfl rfl rfl
theorem write (a : Addr) (d : Word16) : Statement (.write a d) :=
  of_opcode 0x2 0x2 rfl rfl rfl rfl rfl
theorem burstw : Statement .burstw := rfl
theorem burstb : Statement .burstb := rfl
theorem cksum (w : Words) : Statement (.cksum w) :=
  of_opcode 0x5 0x5 rfl rfl rfl rfl rfl
theorem valid (w : Words) : Statement (.valid w) :=
  of_opcode 0x6 0x6 rfl rfl rfl rfl rfl
theorem scaleAccel (r : Word16) : Statement (.scaleAccel r) :=
  of_opcode 0x8 0x8 rfl rfl rfl rfl rfl
theorem scaleGyro (r : Word16) : Statement (.scaleGyro r) :=
  of_opcode 0x9 0x9 rfl rfl rfl rfl rfl
theorem scaleTemp (r : Word16) : Statement (.scaleTemp r) :=
  of_opcode 0xA 0xA rfl rfl rfl rfl rfl
theorem scaleDang (r : Word16) : Statement (.scaleDang r) :=
  of_opcode 0xB 0xB rfl rfl rfl rfl rfl
theorem scaleDvel (r : Word16) : Statement (.scaleDvel r) :=
  of_opcode 0xC 0xC rfl rfl rfl rfl rfl
theorem wrLo (addr : Addr) (data : Byte) : Statement (.wrLo addr data) := bit15_of_wrWord addr data
theorem wrHi (addr : Addr) (data : Byte) : Statement (.wrHi addr data) := bit15_of_wrWord addr data
theorem rq (addr : Addr) : Statement (.rq addr) := by revert addr; unfold Statement; decide
theorem fill : Statement .fill := rfl
theorem trig : Statement .trig := rfl

end Sys2Proof.Laws.TableBits
end

