-- ==== Sys2Proof/Laws/Run.lean ====
section
/-! SUPPORT. What a list of micro-ops does when the transport answers each of its transfers: stated once,
for `runMicroOps`, for the sequencer run to its end, and for steps of the machine. -/

namespace Sys2Proof.Machine

/-- Whether each micro-op of a list is enabled in its turn, from a bus selected or not (R111). -/
def opsEnabled : Bool → List MicroOp → Bool
  | _, [] => true
  | b, .sel :: ms => !b && opsEnabled true ms
  | b, .tx _ :: ms | b, .xr _ _ :: ms => b && opsEnabled b ms
  | b, .desel :: ms => b && opsEnabled false ms
  | b, .stall :: ms => !b && opsEnabled b ms

/-- `SELD` after a list of micro-ops. -/
def seldAfter : Bool → List MicroOp → Bool
  | b, [] => b
  | _, .sel :: ms => seldAfter true ms
  | _, .desel :: ms => seldAfter false ms
  | b, .tx _ :: ms | b, .xr _ _ :: ms | b, .stall :: ms => seldAfter b ms

/-- The receive buffer after a list of micro-ops that received `ins`. -/
def rxAfter : List MicroOp → List Byte → Vector Byte 20 → Vector Byte 20
  | .tx _ :: ms, _ :: is, rx => rxAfter ms is rx
  | .xr _ k :: ms, i :: is, rx => rxAfter ms is (rx.set k.val i)
  | .sel :: ms, is, rx | .desel :: ms, is, rx | .stall :: ms, is, rx => rxAfter ms is rx
  | .tx _ :: _, [], rx | .xr _ _ :: _, [], rx | [], _, rx => rx

/-- The events of a list of micro-ops that received `ins`. -/
def eventsAfter (us : Nat) : List MicroOp → List Byte → List Event
  | .sel :: ms, is => .sel :: eventsAfter us ms is
  | .tx o :: ms, i :: is | .xr o _ :: ms, i :: is => .xfer o i :: eventsAfter us ms is
  | .desel :: ms, is => .desel :: eventsAfter us ms is
  | .stall :: ms, is => .delay us :: eventsAfter us ms is
  | .tx _ :: _, [] | .xr _ _ :: _, [] | [], _ => []

/-- The state after a list of micro-ops that received `ins` and left the transport as `b`. -/
def State.afterOps (s : State) (ms : List MicroOp) (ins : List Byte) (b : Transport) : State :=
  { s with
    ph := s.ph + ms.length
    seld := seldAfter s.seld ms
    rx := rxAfter ms ins s.rx
    bus := b
    trace := s.trace ++ eventsAfter s.cfg.tStallUs ms ins }

@[simp] theorem State.afterOps_nil (s : State) (ins : List Byte) :
    s.afterOps [] ins s.bus = s := by
  simp [State.afterOps, seldAfter, rxAfter, eventsAfter]

theorem play_cons_xfer {m : MicroOp} {o : Byte} {ms : List MicroOp} {b b' : Transport}
    {ins : List Byte} (hm : m = .tx o ∨ ∃ k, m = .xr o k)
    (h : Transport.play (m :: ms) b = some (ins, b')) :
    ∃ i is, ins = i :: is ∧ (b.transfer o).1 = some i ∧
      Transport.play ms (b.transfer o).2 = some (is, b') := by
  have h : (match b.transfer o with
      | (some i, b'') => (Transport.play ms b'').map fun p => (i :: p.1, p.2)
      | (none, _) => none) = some (ins, b') := by
    rcases hm with rfl | ⟨k, rfl⟩ <;> exact h
  split at h
  · next i b'' hb =>
    cases hp : Transport.play ms b'' with
    | none => simp [hp] at h
    | some p =>
      obtain ⟨is, b3⟩ := p
      simp only [hp, Option.map_some, Option.some.injEq, Prod.mk.injEq] at h
      exact ⟨i, is, h.1.symm, by rw [hb], by rw [hb, hp, h.2]⟩
  · cases h

/-- One micro-op that is enabled and whose transfer, if it is one, is answered: the state after it, and
what is left of the received bytes. -/
theorem microOp_play {m : MicroOp} {ms : List MicroOp} {s : State} {ins : List Byte} {b : Transport}
    (he : opsEnabled s.seld (m :: ms) = true)
    (hp : Transport.play (m :: ms) s.bus = some (ins, b)) :
    waitsOn m s = false ∧ ∃ t is, microOp m s = .next t ∧
      opsEnabled t.seld ms = true ∧ Transport.play ms t.bus = some (is, b) ∧
      t.afterOps ms is b = s.afterOps (m :: ms) ins b ∧
      t.ph = s.ph + 1 ∧ t.program = s.program ∧ t.busy = s.busy ∧ t.host = s.host ∧
      t.rsp = s.rsp := by
  cases m with
  | sel =>
    simp only [opsEnabled, Bool.and_eq_true, Bool.not_eq_true'] at he
    refine ⟨rfl, (((s.setBus s.bus.select).setSeld true).advance).emit .sel, ins, ?_, he.2, hp, ?_,
      rfl, rfl, rfl, rfl, rfl⟩
    · simp [microOp, he.1]
    · simp [State.afterOps, State.emit, State.advance, State.setSeld, State.setBus, seldAfter,
        rxAfter, eventsAfter]
      omega
  | tx o =>
    simp only [opsEnabled, Bool.and_eq_true] at he
    obtain ⟨i, is, rfl, hi, hms⟩ := play_cons_xfer (.inl rfl) hp
    refine ⟨by simp [waitsOn, hi], ((s.setBus (s.bus.transfer o).2).advance).emit (.xfer o i), is,
      ?_, he.2, hms, ?_, rfl, rfl, rfl, rfl, rfl⟩
    · simp only [microOp, transferOp, he.1, if_true]
      split
      · next j b' hb => simp only [hb, Option.some.injEq] at hi ⊢; subst hi; rfl
      · next b' hb => simp [hb] at hi
    · simp [State.afterOps, State.emit, State.advance, State.setBus, seldAfter, rxAfter,
        eventsAfter]
      omega
  | xr o k =>
    simp only [opsEnabled, Bool.and_eq_true] at he
    obtain ⟨i, is, rfl, hi, hms⟩ := play_cons_xfer (.inr ⟨k, rfl⟩) hp
    refine ⟨by simp [waitsOn, hi],
      ((State.putRx k i (s.setBus (s.bus.transfer o).2)).advance).emit (.xfer o i), is,
      ?_, he.2, hms, ?_, rfl, rfl, rfl, rfl, rfl⟩
    · simp only [microOp, transferOp, he.1, if_true]
      split
      · next j b' hb => simp only [hb, Option.some.injEq] at hi ⊢; subst hi; rfl
      · next b' hb => simp [hb] at hi
    · simp [State.afterOps, State.emit, State.advance, State.setBus, State.putRx, seldAfter,
        rxAfter, eventsAfter]
      omega
  | desel =>
    simp only [opsEnabled, Bool.and_eq_true] at he
    refine ⟨rfl, ((s.setSeld false).advance).emit .desel, ins, ?_, he.2, hp, ?_,
      rfl, rfl, rfl, rfl, rfl⟩
    · simp [microOp, he.1]
    · simp [State.afterOps, State.emit, State.advance, State.setSeld, seldAfter, rxAfter,
        eventsAfter]
      omega
  | stall =>
    simp only [opsEnabled, Bool.and_eq_true, Bool.not_eq_true'] at he
    refine ⟨rfl, s.advance.emit (.delay s.cfg.tStallUs), ins, ?_, he.2, hp, ?_,
      rfl, rfl, rfl, rfl, rfl⟩
    · simp [microOp, he.1]
    · simp [State.afterOps, State.emit, State.advance, seldAfter, rxAfter,
        eventsAfter]
      omega

/-- A list of micro-ops, all enabled and answered. -/
theorem runMicroOps_play {ms : List MicroOp} : ∀ {s : State} {ins : List Byte} {b : Transport},
    opsEnabled s.seld ms = true → Transport.play ms s.bus = some (ins, b) →
    runMicroOps ms s = .next (s.afterOps ms ins b) := by
  induction ms with
  | nil =>
    intro s ins b _ hp
    simp only [Transport.play, Option.some.injEq, Prod.mk.injEq] at hp
    rw [← hp.2, State.afterOps_nil]; rfl
  | cons m ms ih =>
    intro s ins b he hp
    obtain ⟨hw, t, is, ht, he', hp', ha, -⟩ := microOp_play he hp
    simp only [runMicroOps, hw, ht, Bool.false_eq_true, if_false, ← ha]
    exact ih he' hp'

theorem drop_cons_getElem? {α : Type} {l ms : List α} {n : Nat} {m : α} (h : l.drop n = m :: ms) :
    l[n]? = some m ∧ l.drop (n + 1) = ms := by
  constructor
  · have := congrArg (·[0]?) h
    simpa using this
  · have := congrArg List.tail h
    simpa [List.tail_drop] using this

theorem drop_nil_getElem? {α : Type} {l : List α} {n : Nat} (h : l.drop n = []) :
    l[n]? = none := by
  rw [List.drop_eq_nil_iff] at h
  exact List.getElem?_eq_none h

/-- The sequencer run to the end of a micro-program of which `ms` is left, all enabled and answered. -/
theorem runToEnd_play {ms : List MicroOp} : ∀ {n : Nat} {s : State} {ins : List Byte} {b : Transport},
    s.busy = true → s.program.drop s.ph = ms → s.ph ≤ s.program.length → ms.length < n →
    opsEnabled s.seld ms = true → Transport.play ms s.bus = some (ins, b) →
    runToEnd n s = .next (s.afterOps ms ins b).finish := by
  induction ms with
  | nil =>
    intro n s ins b hb hd hl hn _ hp
    obtain ⟨n, rfl⟩ : ∃ k, n = k + 1 := ⟨n - 1, by simp at hn; omega⟩
    simp only [Transport.play, Option.some.injEq, Prod.mk.injEq] at hp
    have hnone := drop_nil_getElem? hd
    have hlen : s.ph = s.program.length := le_antisymm hl (List.drop_eq_nil_iff.1 hd)
    have hw : s.waiting = false := by simp [State.waiting, hnone]
    rw [← hp.2, State.afterOps_nil]
    simp only [runToEnd, hb, hw, sequencerStep, hlen, Bool.not_false, Bool.and_true, if_true]
    cases n <;> simp [runToEnd]
  | cons m ms ih =>
    intro n s ins b hb hd hl hn he hp
    obtain ⟨n, rfl⟩ : ∃ k, n = k + 1 := ⟨n - 1, by simp at hn; omega⟩
    obtain ⟨hm, hd'⟩ := drop_cons_getElem? hd
    obtain ⟨hw, t, is, ht, he', hp', ha, hph, hpr, hbt, -⟩ := microOp_play he hp
    have hlt : s.ph < s.program.length := by
      by_contra hc
      simp [List.getElem?_eq_none (not_lt.1 hc)] at hm
    have hw' : s.waiting = false := by simp [State.waiting, hm, hw]
    simp only [runToEnd, hb, hw', sequencerStep, hm, ht, Bool.not_false, Bool.and_true, if_true,
      ← ha]
    refine ih (hbt.trans hb) (by rw [hpr, hph, hd']) (by rw [hpr, hph]; omega) ?_ he' hp'
    simp only [List.length_cons] at hn; omega

/-- A bus command of an idle, deselected block whose transfers are all answered. -/
theorem busCommand_play {op : BusOp} {c : Instr} {a : Addr} {d : Word16} {s : State}
    {ins : List Byte} {b : Transport} (hb : s.busy = false)
    (he : opsEnabled s.seld (prog op a d) = true) (hl : (prog op a d).length < maxSteps)
    (hp : Transport.play (prog op a d) s.bus = some (ins, b)) :
    busCommand op c a d s =
      .next ((accept op c a d s).afterOps (prog op a d) ins b).finish := by
  rw [busCommand_idle hb]
  exact runToEnd_play rfl (by simp) (by simp) hl he hp

/-! ### Steps of the machine -/

@[simp] theorem State.ticks_zero (s : State) : s.ticks 0 = s := rfl

theorem State.ticks_succ (n : Nat) (s : State) : s.ticks (n + 1) = s.tick.ticks n := rfl

theorem State.ticks_fields (n : Nat) : ∀ s : State,
    (s.ticks n).busy = s.busy ∧ (s.ticks n).op = s.op ∧ (s.ticks n).a = s.a ∧
    (s.ticks n).d = s.d ∧ (s.ticks n).ph = s.ph ∧ (s.ticks n).seld = s.seld ∧
    (s.ticks n).rx = s.rx ∧ (s.ticks n).cfg = s.cfg ∧ (s.ticks n).bus = s.bus ∧
    (s.ticks n).trace = s.trace := by
  induction n with
  | zero => intro s; simp
  | succ n ih => intro s; exact ih s.tick

theorem accept_ticks (op : BusOp) (c : Instr) (a : Addr) (d : Word16) (n : Nat) : ∀ s : State,
    (accept op c a d s).ticks n = accept op c a d (s.ticks n) := by
  induction n with
  | zero => intro s; rfl
  | succ n ih => intro s; exact ih s.tick

theorem State.NoReset_now {n : Nat} {s : State} (h : s.NoReset (n + 1)) :
    s.hostNow.rst = false := by
  unfold State.hostNow
  cases hh : s.host with
  | nil => rfl
  | cons x xs => exact h x (by simp [hh])

theorem State.NoReset_tick {n : Nat} {s : State} (h : s.NoReset (n + 1)) : s.tick.NoReset n := by
  intro x hx
  refine h x ?_
  cases hh : s.host with
  | nil => simp [hh] at hx
  | cons y ys =>
    simp only [State.tick_host, hh, List.tail_cons] at hx
    simp [hx]

theorem step_busy {s : State} (hr : s.hostNow.rst = false) (hb : s.busy = true) :
    step s = sequencerStep s.tick := by
  simp [step, hr, hb]

theorem step_idle {s : State} {c : Instr} (hr : s.hostNow.rst = false) (hb : s.busy = false)
    (hc : s.presented = some c) : step s = startCommand c s.tick := by
  simp [step, hr, hb, hc]

theorem run_succ {n : Nat} {s t : State} (h : step s = .next t) :
    Host.Core.run core (n + 1) s = Host.Core.run core n t := by
  have h : core.step s = .next t := h
  simp only [Host.Core.run, h]

theorem run_zero (s : State) : Host.Core.run core 0 s = .next s := rfl

theorem State.afterOps_tick (s : State) (ms : List MicroOp) (ins : List Byte) (b : Transport) :
    s.tick.afterOps ms ins b = (s.afterOps ms ins b).tick := rfl

theorem State.afterOps_ticks (n : Nat) : ∀ (s : State) (ms : List MicroOp) (ins : List Byte)
    (b : Transport), (s.ticks n).afterOps ms ins b = (s.afterOps ms ins b).ticks n := by
  induction n with
  | zero => intros; rfl
  | succ n ih => intro s ms ins b; rw [State.ticks_succ, State.ticks_succ, ih, State.afterOps_tick]

theorem State.NoReset_of_host {n : Nat} {s t : State} (h : t.host = s.host) (hs : s.NoReset n) :
    t.NoReset n := by
  intro x hx
  exact hs x (by rwa [h] at hx)

/-- Steps of the machine through the rest of a micro-program, all enabled and answered, and the end
step. -/
theorem run_play {ms : List MicroOp} : ∀ {s : State} {ins : List Byte} {b : Transport},
    s.busy = true → s.program.drop s.ph = ms → s.ph ≤ s.program.length →
    s.NoReset (ms.length + 1) →
    opsEnabled s.seld ms = true → Transport.play ms s.bus = some (ins, b) →
    Host.Core.run core (ms.length + 1) s =
      .next ((s.ticks (ms.length + 1)).afterOps ms ins b).finish := by
  induction ms with
  | nil =>
    intro s ins b hb hd hl hr _ hp
    simp only [Transport.play, Option.some.injEq, Prod.mk.injEq] at hp
    have hnone := drop_nil_getElem? hd
    have hlen : s.ph = s.program.length := le_antisymm hl (List.drop_eq_nil_iff.1 hd)
    have hstep : step s = .next s.tick.finish := by
      rw [step_busy (State.NoReset_now hr) hb]
      simp [sequencerStep, hlen]
    rw [List.length_nil, run_succ hstep, run_zero, ← hp.2]
    exact congrArg (fun t => Host.Outcome.next (State.finish t)) (State.afterOps_nil s.tick ins).symm
  | cons m ms ih =>
    intro s ins b hb hd hl hr he hp
    obtain ⟨hm, hd'⟩ := drop_cons_getElem? hd
    obtain ⟨-, t, is, ht, he', hp', ha, hph, hpr, hbt, hht, -⟩ :=
      microOp_play (s := s.tick) he hp
    have hlt : s.ph < s.program.length := by
      by_contra hc
      simp [List.getElem?_eq_none (not_lt.1 hc)] at hm
    have hstep : step s = .next t := by
      rw [step_busy (State.NoReset_now hr) hb, sequencerStep]
      simp [hm, ht]
    have hph : t.ph = s.ph + 1 := hph
    have hpr : t.program = s.program := hpr
    rw [List.length_cons, run_succ hstep, ih (hbt.trans hb) (by rw [hpr, hph, hd'])
      (by rw [hpr, hph]; omega) (State.NoReset_of_host hht (State.NoReset_tick hr)) he' hp',
      State.afterOps_ticks, ha, State.afterOps_ticks]
    rfl

/-! ### Commands of the port -/

/-- The command decoder gives commands of the port only, and a SCALE command only with unit `SCL` (R97). -/
theorem decodeCommand_ok {hasScl : Bool} {p : Port} {c : Instr} (h : decodeCommand hasScl p = .ok c) :
    decodeOpcode p = .ok c ∧ c.isCommand = true ∧ (c.needsScl = true → hasScl = true) := by
  unfold decodeCommand at h
  split at h
  · next i hi =>
    split at h
    · cases h
    · next hn =>
      simp only [Except.ok.injEq] at h
      subst h
      refine ⟨hi, ?_, fun hs => by simpa [hs] using hn⟩
      unfold decodeOpcode at hi
      split at hi <;> first | (cases hi; rfl) | cases hi
  · cases h

theorem State.presented_some {s : State} {c : Instr} (h : s.presented = some c) :
    c.isCommand = true ∧ (c.needsScl = true → s.cfg.hasScl = true) := by
  unfold State.presented at h
  split at h
  · next p _ =>
    cases hd : decodeCommand s.cfg.hasScl p with
    | error e => simp [hd, Except.toOption] at h
    | ok i =>
      simp only [hd, Except.toOption, Option.some.injEq] at h
      exact h ▸ (decodeCommand_ok hd).2
  · cases h

end Sys2Proof.Machine
end

