-- ==== Sys2Proof/Laws/Program.lean ====
section
/-! SUPPORT. The shape of the micro-programs: their lengths, that each micro-op stands where the bus is as it
needs it, that a whole program is enabled and ends deselected, and how traces grow by one event. -/

namespace Sys2Proof.Machine

theorem prog_length (op : BusOp) (a : Addr) (d : Word16) :
    (prog op a d).length = match op with
      | .read | .write => 10
      | .burstw | .burstb => 25 := by
  cases op <;> simp [prog, burstReceives]

theorem prog_length_le (op : BusOp) (a : Addr) (d : Word16) : (prog op a d).length ≤ 25 := by
  rw [prog_length]; cases op <;> decide

theorem prog_enabled (op : BusOp) (a : Addr) (d : Word16) :
    opsEnabled false (prog op a d) = true := by
  cases op <;> simp [prog, burstReceives, List.ofFn_succ, opsEnabled]

theorem prog_seldAfter (op : BusOp) (a : Addr) (d : Word16) :
    seldAfter false (prog op a d) = false := by
  cases op <;> simp [prog, burstReceives, List.ofFn_succ, seldAfter]

/-- The phase of the bus a micro-op needs. -/
def needsPhase : MicroOp → BusPhase
  | .sel => .ready
  | .tx _ | .xr _ _ | .desel => .selected
  | .stall => .owesDelay

/-- The phase of the bus a micro-op leaves. -/
def leavesPhase : MicroOp → BusPhase
  | .sel | .tx _ | .xr _ _ => .selected
  | .desel => .owesDelay
  | .stall => .ready

/-- Every micro-op of a micro-program stands where the bus is as it needs it (R111, R112). -/
theorem prog_needsPhase {op : BusOp} {a : Addr} {d : Word16} {n : Nat} {m : MicroOp}
    (h : (prog op a d)[n]? = some m) : phaseAfter ((prog op a d).take n) = needsPhase m := by
  have hlt : n < 25 := by
    by_contra hc
    rw [List.getElem?_eq_none (by have := prog_length_le op a d; omega)] at h
    cases h
  cases op <;> interval_cases n <;> simp [prog, burstReceives, List.ofFn_succ] at h <;>
    subst h <;> rfl

theorem phaseAfter_prog (op : BusOp) (a : Addr) (d : Word16) :
    phaseAfter (prog op a d) = .ready := by
  cases op <;> simp [prog, burstReceives, List.ofFn_succ] <;> rfl

theorem phaseAfter_snoc {ms : List MicroOp} {m : MicroOp} (h : phaseAfter ms = needsPhase m) :
    phaseAfter (ms ++ [m]) = leavesPhase m := by
  have e : phaseAfter (ms ++ [m]) = (match m with
      | MicroOp.sel | MicroOp.tx _ | MicroOp.xr _ _ => BusPhase.selected
      | MicroOp.desel => BusPhase.owesDelay
      | MicroOp.stall => if phaseAfter ms = .owesDelay then .ready else .broken) := by
    simp only [phaseAfter, List.foldl_append, List.foldl_cons, List.foldl_nil]
    cases m <;> rfl
  rw [e]
  cases m <;> simp_all [needsPhase, leavesPhase]

theorem take_succ_of_getElem? {α : Type} {l : List α} {n : Nat} {m : α} (h : l[n]? = some m) :
    l.take (n + 1) = l.take n ++ [m] := by
  rw [List.take_add_one, h]; rfl

theorem lt_length_of_getElem? {α : Type} {l : List α} {n : Nat} {m : α} (h : l[n]? = some m) :
    n < l.length := by
  by_contra hc
  rw [List.getElem?_eq_none (not_lt.1 hc)] at h
  cases h

theorem traceSelected_snoc (es : List Event) (e : Event) :
    traceSelected (es ++ [e]) = selectedStep (traceSelected es) e := by
  simp [traceSelected]

theorem busPhase_snoc (us : Nat) (es : List Event) (e : Event) :
    busPhase us (es ++ [e]) = busPhaseStep us (busPhase us es) e := by
  simp [busPhase]

theorem portPhase_snoc (es : List Event) (e : Event) :
    portPhase (es ++ [e]) = portPhaseStep (portPhase es) e := by
  simp [portPhase]

/-! ### Received bytes -/

/-- How many transfers a list of micro-ops makes. -/
def transferCount : List MicroOp → Nat
  | [] => 0
  | .tx _ :: ms | .xr _ _ :: ms => transferCount ms + 1
  | .sel :: ms | .desel :: ms | .stall :: ms => transferCount ms

/-- One byte is received for each transfer. -/
theorem play_length {ms : List MicroOp} : ∀ {b b' : Transport} {ins : List Byte},
    Transport.play ms b = some (ins, b') → ins.length = transferCount ms := by
  induction ms with
  | nil =>
    intro b b' ins h
    simp only [Transport.play, Option.some.injEq, Prod.mk.injEq] at h
    simp [← h.1, transferCount]
  | cons m ms ih =>
    intro b b' ins h
    cases m with
    | sel => exact ih h
    | desel => exact ih h
    | stall => exact ih h
    | tx o =>
      obtain ⟨i, is, rfl, -, h⟩ := play_cons_xfer (.inl rfl) h
      simp [transferCount, ih h]
    | xr o k =>
      obtain ⟨i, is, rfl, -, h⟩ := play_cons_xfer (.inr ⟨k, rfl⟩) h
      simp [transferCount, ih h]

theorem transferCount_prog (op : BusOp) (a : Addr) (d : Word16) :
    transferCount (prog op a d) = match op with
      | .read | .write => 4
      | .burstw | .burstb => 22 := by
  cases op <;> simp [prog, burstReceives, List.ofFn_succ, transferCount]

/-- The events of receiving micro-ops, one byte each. -/
theorem eventsAfter_map_xr (us : Nat) (o : Byte) (ks : List (Fin 20)) :
    ∀ (is : List Byte) (ms : List MicroOp) (rest : List Byte), is.length = ks.length →
      eventsAfter us (ks.map (.xr o) ++ ms) (is ++ rest) =
        is.map (.xfer o) ++ eventsAfter us ms rest := by
  induction ks with
  | nil => intro is ms rest h; simp at h; simp [h]
  | cons k ks ih =>
    intro is ms rest h
    cases is with
    | nil => simp at h
    | cons i is =>
      simp only [List.map_cons, List.cons_append, eventsAfter]
      rw [ih is ms rest (by simpa using h)]

/-- The events of a burst (R162). -/
theorem burst_eventsAfter (us : Nat) (op : BusOp) (hop : op = .burstw ∨ op = .burstb) (a : Addr)
    (d : Word16) (t0 t1 : Byte) (v : Vector Byte 20) :
    eventsAfter us (prog op a d) (t0 :: t1 :: v.toList) =
      [.sel, .xfer 0x68 t0, .xfer 0x00 t1] ++ v.toList.map (.xfer 0x00) ++ [.desel, .delay us] := by
  have h : burstReceives = (List.finRange 20).map (.xr fillByte) := List.ofFn_eq_map
  have h2 := eventsAfter_map_xr us fillByte (List.finRange 20) v.toList [.desel, .stall] []
    (by simp)
  rw [List.append_nil] at h2
  rcases hop with rfl | rfl <;> simp only [prog, h, eventsAfter, List.cons_append,
      List.nil_append] <;> rw [h2] <;> rfl

/-- A burst fills the whole receive buffer with the twenty bytes after the trigger's (R112). -/
theorem burst_rxAfter (op : BusOp) (hop : op = .burstw ∨ op = .burstb) (a : Addr) (d : Word16)
    (t0 t1 : Byte) (v rx : Vector Byte 20) :
    rxAfter (prog op a d) (t0 :: t1 :: v.toList) rx = v := by
  have hv : v.toList = List.ofFn fun k : Fin 20 => v[k] := by
    refine List.ext_getElem (by simp) fun i h1 h2 => ?_
    simp only [List.getElem_ofFn, Vector.getElem_toList, Fin.getElem_fin]
  have : rxAfter (prog op a d) (t0 :: t1 :: v.toList) rx =
      rxAfter (prog .burstw a d) (t0 :: t1 :: v.toList) rx := by
    rcases hop with rfl | rfl <;> rfl
  rw [this, hv]
  simp only [prog, burstReceives, List.ofFn_succ, rxAfter, List.cons_append, List.nil_append,
    List.ofFn_zero]
  refine Vector.ext fun i hi => ?_
  simp only [Vector.getElem_set]
  interval_cases i <;> simp

end Sys2Proof.Machine
end

