-- ==== Sys2Proof/Tests/Slice0.lean ====
section
/-! SUPPORT. The model's own tests: ill-formed terms the checks refuse, words written out from the encoding
tables of spec/30_encoding.md, the vectors of spec/95_test_vectors.md, and for each obligation with hypotheses a
state and operands that meet them all. -/

namespace Sys2Proof.Tests

open Sys2Proof Sys2Proof.Machine

/-! ### Small states -/

/-- The state an outcome gives, if it gives one. -/
def nextOf : Host.Outcome State Fault Refusal → Option State
  | .next t => some t
  | .fault _ => none
  | .refused _ => none

/-- The fault an outcome gives, if it gives one. -/
def faultOf : Host.Outcome State Fault Refusal → Option Fault
  | .next _ => none
  | .fault r => some r
  | .refused _ => none

/-- The block after reset, with the bytes the transport will answer. -/
def block (xs : List Byte) : State := { State.reset with bus := .script (xs.map some) 0 }

/-- The block after reset, with a transport that does not answer. -/
def deadBlock : State := { State.reset with bus := .script [none] 0 }

/-- The block after reset, with a port presented in the next step. -/
def asked (p : Port) (s : State) : State := { s with host := [HostIn.present p] }

/-- A command in flight at `ph`, its trace as R37 (c) wants it. -/
def inFlight (op : BusOp) (ph : Nat) (seld : Bool) (s : State) : State :=
  { s with
    busy := true, op := op, ph := ph, seld := seld,
    trace := if seld then [.cmd .burstw, .sel] else [.cmd .burstw] }

/-- Words by their first elements, the others `0`. -/
def words (ws : List Word16) : Words := Vector.ofFn fun k : Fin 10 => ws.getD k.val 0

/-- The response an execution leaves on the port. -/
def response (o : Host.Outcome State Fault Refusal) : Option Response := (nextOf o).bind State.rsp

/-- The bus trace an execution leaves. -/
def busEvents (o : Host.Outcome State Fault Refusal) : Option (List Event) :=
  (nextOf o).map fun t => busTrace t.trace

/-- The port of a command with all operand wires driven. -/
def port (op : Opcode) : Port := { op := op, addr := 0x60, data := 0x1234, words := words [0x4000, 1] }

/-! ### Well-formedness -/

theorem test_wf_scale_without_unit : (Instr.scaleAccel 1).wf false = false := by decide
theorem test_wf_wrHi_even : (Instr.wrHi 0x60 0x12).wf true = false := by decide
theorem test_wf_odd_address_is_accepted : (Instr.write 0x61 0xABCD).wf false = true := by decide

/-! ### Words written out from R92 and R83 -/

theorem test_decode_read : (decodeCommand false (port 0b0001)).toOption = some (.read 0x60) := by
  decide
theorem test_decode_write :
    (decodeCommand false (port 0b0010)).toOption = some (.write 0x60 0x1234) := by decide
theorem test_decode_burstw : (decodeCommand false (port 0b0011)).toOption = some .burstw := by decide
theorem test_decode_burstb : (decodeCommand false (port 0b0100)).toOption = some .burstb := by decide
theorem test_decode_cksum :
    (decodeCommand false (port 0b0101)).toOption = some (.cksum (words [0x4000, 1])) := by decide
theorem test_decode_valid :
    (decodeCommand false (port 0b0110)).toOption = some (.valid (words [0x4000, 1])) := by decide
theorem test_decode_scaleAccel :
    (decodeCommand true (port 0b1000)).toOption = some (.scaleAccel 0x1234) := by decide
theorem test_decode_scaleGyro :
    (decodeCommand true (port 0b1001)).toOption = some (.scaleGyro 0x1234) := by decide
theorem test_decode_scaleTemp :
    (decodeCommand true (port 0b1010)).toOption = some (.scaleTemp 0x1234) := by decide
theorem test_decode_scaleDang :
    (decodeCommand true (port 0b1011)).toOption = some (.scaleDang 0x1234) := by decide
theorem test_decode_scaleDvel :
    (decodeCommand true (port 0b1100)).toOption = some (.scaleDvel 0x1234) := by decide
theorem test_decode_unassigned :
    ([0x0, 0x7, 0xD, 0xE, 0xF].map fun op => (decodeCommand true (port op)).toOption) =
      List.replicate 5 none := by decide
theorem test_decode_scale_without_unit :
    ([0x8, 0x9, 0xA, 0xB, 0xC].map fun op => (decodeCommand false (port op)).toOption) =
      List.replicate 5 none := by decide

/-- E1: `1 1100000 00110100`. -/
theorem test_decode_wrLo : (decodeFrame .opening 0b1110000000110100).toOption =
    some (.wrLo 0x60 0x34) := by decide
/-- E1: `1 1100001 00010010`. -/
theorem test_decode_wrHi : (decodeFrame .closing 0b1110000100010010).toOption =
    some (.wrHi 0x61 0x12) := by decide
/-- E8: `0 1100000 00000000`. -/
theorem test_decode_rq : (decodeFrame .opening 0b0110000000000000).toOption = some (.rq 0x60) := by
  decide
theorem test_decode_fill : (decodeFrame .closing 0b0000000000000000).toOption = some .fill := by
  decide
theorem test_decode_trig : (decodeFrame .burstFirst 0b0110100000000000).toOption = some .trig := by
  decide
/-- E9, E11 (R100): the request frames that look like a fill frame and like the trigger. -/
theorem test_decode_rq_overlaps :
    (decodeFrame .opening 0x0000).toOption = some (.rq 0x00) ∧
    (decodeFrame .opening 0x6800).toOption = some (.rq 0x68) := by decide
/-- E7 (R145): by position an odd WRITE's first frame is WR.LO, although its bit 8 is set. -/
theorem test_decode_odd_wrLo : (decodeFrame .opening 0xE1CD).toOption = some (.wrLo 0x61 0xCD) := by
  decide
/-- R83, R98: a frame the block cannot send. -/
theorem test_decode_not_sent : (decodeFrame .opening 0x6001).toOption = none := by decide
/-- R80: no transaction of another length. -/
theorem test_decode_bad_length :
    (decodeBusTrace [.sel, .xfer 0 0, .desel]).toOption = none := by decide

/-! ### Wire encoding, vectors E1 to E12 -/

theorem test_write_words :
    (addrWord 0x60, lowWord 0x60 0x1234, highWord 0x60 0x1234) = (0xE000, 0xE034, 0xE112) ∧
    (addrWord 0x00, lowWord 0x00 0x0000, highWord 0x00 0x0000) = (0x8000, 0x8000, 0x8100) ∧
    (addrWord 0x7E, lowWord 0x7E 0xFFFF, highWord 0x7E 0xFFFF) = (0xFE00, 0xFEFF, 0xFFFF) ∧
    (addrWord 0x64, lowWord 0x64 0x8001, highWord 0x64 0x8001) = (0xE400, 0xE401, 0xE580) ∧
    (addrWord 0x61, lowWord 0x61 0xABCD, highWord 0x61 0xABCD) = (0xE100, 0xE1CD, 0xE1AB) := by
  decide

/-! ### READ and WRITE -/

/-- RD1, with its full trace. -/
theorem test_read_trace :
    response (exec (.read 0x60) (block [0xAA, 0xBB, 0x12, 0x34])) = some (.rdVal 4660) ∧
    busEvents (exec (.read 0x60) (block [0xAA, 0xBB, 0x12, 0x34])) = some
      [.sel, .xfer 0x60 0xAA, .xfer 0x00 0xBB, .desel, .delay 20,
       .sel, .xfer 0x00 0x12, .xfer 0x00 0x34, .desel, .delay 20] := by decide
/-- RD3, RD6. -/
theorem test_read_negative :
    response (exec (.read 0) (block [0xFF, 0xFF, 0x80, 0x00])) = some (.rdVal (-32768)) ∧
    response (exec (.read 0) (block [0x00, 0x00, 0xFF, 0x85])) = some (.rdVal (-123)) := by decide
/-- E4. -/
theorem test_write_trace :
    response (exec (.write 0x64 0x8001) (block [0, 0, 0, 0])) = some (.wrDone true) ∧
    busEvents (exec (.write 0x64 0x8001) (block [0, 0, 0, 0])) = some
      [.sel, .xfer 0xE4 0, .xfer 0x01 0, .desel, .delay 20,
       .sel, .xfer 0xE5 0, .xfer 0x80 0, .desel, .delay 20] := by decide
/-- P5, command 1: on the fixture an odd WRITE writes its location twice and the next one never. -/
theorem test_write_odd_on_fixture :
    (nextOf (exec (.write 0x61 0xABCD)
      { State.reset with bus := .stub (DevStub.start (Vector.replicate 9 0)) })).map
        (fun t => match t.bus with
          | .stub dev => dev.mem
          | .script _ _ => []) = some [(0x61, 0xAB)] := by decide

/-! ### Bursts -/

/-- The received bytes of B1. -/
def b1 : List Byte :=
  [0xA5, 0x5A, 0x00, 0x00, 0x00, 0x64, 0xFF, 0x9C, 0x00, 0x05, 0x00, 0x10, 0xFF, 0xF0, 0x03, 0x20,
   0x00, 0xFA, 0x12, 0x34, 0x05, 0x66]

theorem test_burstw_b1 : response (exec .burstw (block b1)) =
    some (.burstWords #v[0, 100, -100, 5, 16, -16, 800, 250, 4660, 1382] true) := by decide
/-- B3. -/
theorem test_burstw_all_ones : response (exec .burstw (block (List.replicate 22 0xFF))) =
    some (.burstWords (Vector.replicate 10 (-1)) false) := by decide
theorem test_burstb_b1 : response (exec .burstb (block b1)) =
    some (.burstBytes #v[0x00, 0x00, 0x00, 0x64, 0xFF, 0x9C, 0x00, 0x05, 0x00, 0x10, 0xFF, 0xF0,
      0x03, 0x20, 0x00, 0xFA, 0x12, 0x34, 0x05, 0x66]) := by decide
/-- R162: one `Sel`, one `Desel`, one `Delay`. -/
theorem test_burst_one_transaction :
    ((busEvents (exec .burstb (block b1))).map fun es =>
      (es.length, es.take 3, es.drop 23)) =
    some (25, [.sel, .xfer 0x68 0xA5, .xfer 0x00 0x5A], [.desel, .delay 20]) := by decide

/-! ### Checksum, vectors K1 to K11 -/

/-- The words of K5. -/
def k5 : List Word16 :=
  [0x0000, 0x0064, 0xFF9C, 0x0005, 0x0010, 0xFFF0, 0x0320, 0x00FA, 0x1234]

/-- K1, and the tenth word ignored. -/
theorem test_cksum_k1 :
    response (exec (.cksum (words [0x4000, 0x0001, 0, 0, 0, 0, 0, 0, 0, 0xFFFF])) (block [])) =
      some (.sum 0x0041) := by decide
/-- K5, K9. -/
theorem test_cksum_k5_k9 :
    cksum (words k5) = 0x0566 ∧
    cksum (words [0x0001, 0x7FFF, 0x8000, 0x0102, 0x0201, 0xFFFE, 0x0320, 0xFF38, 0xABCD]) =
      0x06D4 := by decide
/-- K5, K6. -/
theorem test_valid_k5_k6 :
    response (exec (.valid (words (k5 ++ [0x0566]))) (block [])) = some (.valid true) ∧
    response (exec (.valid ((words (k5 ++ [0x0566])).set 4 0x0011)) (block [])) =
      some (.valid false) := by decide
/-- K4, K7, K8, K10. -/
theorem test_valid_corners :
    validBit (Vector.replicate 10 0xFFFF) = false ∧
    validBit ((words (k5 ++ [0x0566])).set 4 0x1000) = true ∧
    validBit ((words (k5 ++ [0x0567])).set 4 0x0011) = true ∧
    validBit (words [0, 0, 0, 0, 0, 0, 0, 0, 0, 0x8000]) = false := by decide

/-! ### Scaling, vectors F1 to F16 -/

theorem test_literals :
    encodeFloat .binary64 (litOf .binary64 accelConst) = .b64 0x3F547AE147AE147B ∧
    encodeFloat .binary32 (litOf .binary32 gyroConst) = .b32 0x3DCCCCCD ∧
    encodeFloat .binary64 (litOf .binary64 dangConst) = .b64 0x3FAF3B645A1CAC08 ∧
    encodeFloat .binary32 (litOf .binary32 dvelConst) = .b32 0x3C480C74 := by decide
/-- F1, F3, F4, F5. -/
theorem test_scaleAccel :
    response (exec (.scaleAccel 0) (block [])) = some (.scaled (.b64 0)) ∧
    response (exec (.scaleAccel 0xFFFF) (block [])) = some (.scaled (.b64 0xBF547AE147AE147B)) ∧
    response (exec (.scaleAccel 800) (block [])) = some (.scaled (.b64 0x3FF0000000000000)) ∧
    response (exec (.scaleAccel 0x8000) (block [])) = some (.scaled (.b64 0xC0447AE147AE147B)) := by
  decide
/-- F6, F2, in binary32. -/
theorem test_scaleAccel_binary32 :
    scaleBy .binary32 accelConst 32767 = .b32 0x4223D5C2 ∧
    scaleBy .binary32 accelConst 1 = .b32 0x3AA3D70A := by decide
/-- F8, F9: the product of the rounded literal, not the real product rounded once (R210). -/
theorem test_scaleGyro :
    response (exec (.scaleGyro 32767) (block [])) = some (.scaled (.b64 0x40A9996666666667)) ∧
    scaleBy .binary32 gyroConst 0x8000 = .b32 0xC54CCCCD := by decide
/-- F7. -/
theorem test_scaleTemp :
    response (exec (.scaleTemp 250) (block [])) = some (.scaled (.b64 0x4039000000000000)) ∧
    scaleBy .binary32 tempConst 250 = .b32 0x41C80000 := by decide
/-- F10, F13. -/
theorem test_scaleDang :
    response (exec (.scaleDang 1000) (block [])) = some (.scaled (.b64 0x404E800000000000)) ∧
    scaleBy .binary64 dangConst 32767 = .b64 0x409F3B25E353F7CF ∧
    scaleBy .binary32 dangConst 32767 = .b32 0x44F9D92F := by decide
/-- F14, F16. -/
theorem test_scaleDvel :
    response (exec (.scaleDvel 1000) (block [])) = some (.scaled (.b64 0x40286B851EB851EC)) ∧
    scaleBy .binary64 dvelConst 32767 = .b64 0x4079015C725C3DEF ∧
    scaleBy .binary32 dvelConst 32767 = .b32 0x43C80AE4 := by decide

/-! ### Frames -/

/-- R84: a write frame keeps nothing of what it receives. -/
theorem test_wrLo_bytes :
    ((nextOf (exec (.wrLo 0x60 0x34) { block [1, 2] with seld := true })).map fun t =>
      (t.trace, t.rx)) =
    some ([.xfer 0xE0 1, .xfer 0x34 2], Vector.replicate 20 0) := by decide
theorem test_wrHi_bytes :
    ((nextOf (exec (.wrHi 0x61 0x12) { block [1, 2] with seld := true })).map State.trace) =
    some [.xfer 0xE1 1, .xfer 0x12 2] := by decide
theorem test_rq_bytes :
    ((nextOf (exec (.rq 0x60) { block [1, 2] with seld := true })).map State.trace) =
    some [.xfer 0x60 1, .xfer 0x00 2] := by decide
theorem test_trig_bytes :
    ((nextOf (exec .trig { block [1, 2] with seld := true })).map State.trace) =
    some [.xfer 0x68 1, .xfer 0x00 2] := by decide
/-- R84, R112: in the response phase of a READ a fill frame's bytes go to `RX[0]` and `RX[1]`. -/
theorem test_fill_keeps_bytes :
    ((nextOf (exec .fill (inFlight .read 6 true (block [0x12, 0x34])))).map fun t =>
      (t.rx[0], t.rx[1], t.rx[2], t.ph)) = some (0x12, 0x34, 0, 8) := by decide

/-! ### The sequencer, vectors Q1 to Q10, and reset, vectors Z1 to Z4 -/

theorem test_q1_accept :
    ((nextOf (step (asked (port 0x1) (block [])))).map fun t =>
      (t.busy, t.a, t.ph, t.seld, t.trace)) =
    some (true, 0x60, 0, false, [.cmd (.read 0x60)]) := by decide
theorem test_q2_sel :
    ((nextOf (step (inFlight .read 0 false (block [])))).map fun t => (t.seld, t.ph, t.trace)) =
    some (true, 1, [.cmd .burstw, .sel]) := by decide
theorem test_q4_receive :
    ((nextOf (step (inFlight .read 6 true (block [0x12])))).map fun t => (t.rx[0], t.ph)) =
    some (0x12, 7) := by decide
theorem test_q6_busy_block_ignores_write :
    nextOf (step (asked (port 0x2) (inFlight .burstw 12 true deadBlock))) =
    nextOf (step { inFlight .burstw 12 true deadBlock with host := [HostIn.quiet] }) := by decide
theorem test_q7_hang :
    ((nextOf (step (inFlight .burstw 12 true deadBlock))).map fun t => (t.busy, t.seld, t.ph)) =
    some (true, true, 12) := by decide
theorem test_q9_unassigned :
    ((nextOf (step (asked (port 0x7) (block [])))).map fun t => (t.busy, t.trace)) =
    some (false, []) := by decide
theorem test_q10_desel :
    ((nextOf (step (inFlight .burstw 23 true (block [])))).map fun t => (t.seld, t.ph)) =
    some (false, 24) := by decide
theorem test_z3_reset_in_burst :
    ((nextOf (step { inFlight .burstw 12 true (block []) with host := [⟨true, none⟩] })).map fun t =>
      (t.busy, t.rsp, t.trace)) = some (false, none, [.cmd .burstw, .sel, .desel]) := by decide
theorem test_z4_reset_idle :
    ((nextOf (step { block [] with host := [⟨true, some (port 0x3)⟩] })).map State.trace) =
    some [] := by decide

/-! ### Fetching -/

/-- The first step after reset runs the command of a table word: here BURSTW is accepted. -/
theorem test_fetch_burstw :
    ((nextOf (step (State.reset.withFetchWord 8 0x3))).map State.trace) = some [.cmd .burstw] := by
  decide
/-- A pure command is done in that step. -/
theorem test_fetch_valid :
    ((nextOf (step (State.reset.withFetchWord 4 0x6))).bind State.rsp) = some (.valid true) := by
  decide
/-- A frame's first byte goes out in it. -/
theorem test_fetch_wrLo :
    ((nextOf (step (State.reset.withFetchWord 16 0xE034))).map State.trace) =
    some [.xfer 0xE0 0] := by decide
theorem test_fetch_trig :
    ((nextOf (step (State.reset.withFetchWord 16 0x6800))).map State.trace) =
    some [.xfer 0x68 0] := by decide

/-! ### Witnesses: for each obligation with hypotheses, operands and a state that meet them all -/

/-- A burst in flight, its next transfer answered. -/
def burst12 : State := inFlight .burstw 12 true (block [0x12, 0x34])

/-- An idle block on an instance without unit `SCL`. -/
def noScl : State :=
  { block [] with cfg := { Config.instanceDefault with hasScl := false } }

/-- A selected bus with two answers to come. -/
def selected : State := { block [1, 2] with seld := true }

theorem witness_ResetStepAbandonsCommand :
    ({ burst12 with host := [⟨true, none⟩] } : State).hostNow.rst = true ∧ burst12.seld = true ∧
    ({ block [] with host := [⟨true, none⟩] } : State).hostNow.rst = true ∧
    (block []).seld = false := by decide
theorem witness_FirstSelectAfterResetOwesNoStall :
    ({ block [] with host := [⟨true, none⟩, ⟨false, some (port 1)⟩, ⟨false, none⟩] } : State).host =
      ⟨true, none⟩ :: ⟨false, some (port 1)⟩ :: ⟨false, none⟩ :: [] ∧
    decodeCommand (block []).cfg.hasScl (port 1) = .ok (.read 0x60) ∧
    commandProgram (.read 0x60) ≠ [] := ⟨rfl, rfl, by decide⟩
theorem witness_IdleBlockStaysIdle :
    (block []).busy = false ∧ (block []).hostNow = HostIn.quiet := by decide
theorem witness_StepKeepsInvariant : burst12.Inv ∧ ∃ t, step burst12 = .next t :=
  ⟨by decide, _, rfl⟩
theorem witness_StepKeepsStallProtocol :
    burst12.Inv ∧ burst12.StallInv ∧ burst12.ResetsClean ∧ ∃ t, step burst12 = .next t :=
  ⟨by decide, by decide, by decide, _, rfl⟩
theorem witness_StallProtocolPutsDelayBetween :
    busPhase 20 [.sel, .desel, .delay 20, .cmd .burstw, .sel] ≠ .broken ∧
    busPhase 20 [.sel, .desel, .delay 20] = .ready := by decide
theorem witness_StepKeepsOneResponsePerCommand :
    burst12.PortInv ∧ burst12.ResetsClean ∧ ∃ t, step burst12 = .next t :=
  ⟨by decide, by decide, _, rfl⟩
theorem witness_StepNeverStops : burst12.Inv ∧ (inFlight .write 10 false (block [])).Inv := by decide
theorem witness_StepKeepsConstants : ∃ t, step burst12 = .next t := ⟨_, rfl⟩
theorem witness_StepKeepsFixtureMemoryCanonical :
    let s : State := inFlight .write 2 true { block [] with
      bus := .stub { DevStub.start (Vector.replicate 9 0) with
        mem := [(0x7F, 1)], count := 1, held := 0xE0 } }
    s.bus.memoryOk = true ∧ ∃ t, step s = .next t := ⟨by decide, _, rfl⟩
/-- Two bursts in flight whose `RX[19]` differs, and two states in which `SEL` is not enabled. -/
theorem witness_UnreadRegistersAreNeverObserved :
    burst12.Agrees { burst12 with rx := burst12.rx.set 19 0xFF } ∧ (∃ t, step burst12 = .next t) ∧
    step (inFlight .read 0 true (block [])) = .fault .notEnabled := by
  refine ⟨?_, ⟨_, rfl⟩, rfl⟩
  unfold State.Agrees
  decide
theorem witness_AcceptanceStep :
    (asked (port 1) (block [])).busy = false ∧ (asked (port 1) (block [])).hostNow.rst = false ∧
    (asked { port 1 with addr := 0x7F } (block [])).presented = some (.read 0x7F) ∧
    (asked { port 2 with data := 0xFFFF } (block [])).presented = some (.write 0x60 0xFFFF) ∧
    (asked (port 3) (block [])).presented = some .burstw ∧
    (asked (port 4) (block [])).presented = some .burstb := by decide
theorem witness_PureCommandStep :
    (asked (port 5) (block [])).busy = false ∧ (asked (port 5) (block [])).hostNow.rst = false ∧
    (asked (port 5) (block [])).presented = some (.cksum (words [0x4000, 1])) ∧
    (asked (port 6) (block [])).presented = some (.valid (words [0x4000, 1])) ∧
    (asked (port 8) (block [])).presented = some (.scaleAccel 0x1234) ∧
    (asked (port 9) (block [])).presented = some (.scaleGyro 0x1234) ∧
    (asked (port 10) (block [])).presented = some (.scaleTemp 0x1234) ∧
    (asked (port 11) (block [])).presented = some (.scaleDang 0x1234) ∧
    (asked (port 12) (block [])).presented = some (.scaleDvel 0x1234) := by decide
theorem witness_MicroOpEffects :
    (block []).seld = false ∧ selected.seld = true ∧
    selected.bus.transfer 0x60 = (some 1, .script [some 2] 0) ∧
    burst12.Inv ∧ burst12.busy = true ∧ burst12.program[burst12.ph]? = some (.xr 0 9) := by decide
theorem witness_ChecksumIsByteSum :
    (bytesOf (Vector.replicate 9 0xFF00)).reverse.Perm (bytesOf (Vector.replicate 9 0xFF00)) :=
  List.reverse_perm _
theorem witness_SequencerTakesOneMicroOpAStep :
    (burst12.Inv ∧ burst12.busy = true ∧ burst12.hostNow.rst = false ∧
      burst12.ph < burst12.program.length ∧ burst12.waiting = false) ∧
    ((inFlight .burstb 24 false (block [])).Inv ∧
      (inFlight .burstb 24 false (block [])).ph < (inFlight .burstb 24 false (block [])).program.length ∧
      (inFlight .burstb 24 false (block [])).waiting = false) := by decide
theorem witness_UnansweredTransferHoldsBlock :
    (inFlight .burstw 12 true deadBlock).busy = true ∧
    (inFlight .burstw 12 true deadBlock).hostNow.rst = false ∧
    (inFlight .burstw 12 true deadBlock).waiting = true ∧
    (inFlight .read 1 true deadBlock).waiting = true := by decide
theorem witness_EndStepDeliversResponse :
    (inFlight .read 10 false (block [])).busy = true ∧
    (inFlight .read 10 false (block [])).hostNow.rst = false ∧
    (inFlight .read 10 false (block [])).ph = (inFlight .read 10 false (block [])).program.length ∧
    (inFlight .write 10 false (block [])).ph = (inFlight .write 10 false (block [])).program.length ∧
    (inFlight .burstw 25 false (block [])).ph =
      (inFlight .burstw 25 false (block [])).program.length ∧
    (inFlight .burstb 25 false (block [])).ph =
      (inFlight .burstb 25 false (block [])).program.length := by decide
theorem witness_BusyBlockIgnoresCommands :
    burst12.busy = true ∧ (Instr.write 0x60 1).isCommand = true := by decide
theorem witness_UnassignedOpcodeDoesNothing :
    ((asked (port 0xF) (block [])).busy = false ∧
      (asked (port 0xF) (block [])).hostNow = HostIn.present (port 0xF) ∧
      (port 0xF).op ∈ ([0x0, 0x7, 0xD, 0xE, 0xF] : List Opcode)) ∧
    ((asked (port 0xC) noScl).busy = false ∧
      (asked (port 0xC) noScl).hostNow = HostIn.present (port 0xC) ∧
      (port 0xC).op ∈ ([0x8, 0x9, 0xA, 0xB, 0xC] : List Opcode) ∧
      (asked (port 0xC) noScl).cfg.hasScl = false) := by decide
/-- Ports that differ in every wire the command does not read. -/
theorem witness_UnreadWiresAreIgnored :
    (port 1).op = (0x1 : Opcode) ∧ (port 1).addr = (Port.mk 1 0x60 7 (words [])).addr ∧
    (port 2).data = (Port.mk 2 0x60 0x1234 (words [])).data ∧ (port 3).op = (0x3 : Opcode) ∧
    (port 5).words = (Port.mk 5 1 7 (words [0x4000, 1])).words ∧
    (port 0xC).data = (Port.mk 0xC 1 0x1234 (words [])).data ∧
    (∀ k : Fin 9, (words [1])[k.val] = ((words [1]).set 9 0xFFFF)[k.val]) := by decide
theorem witness_StepRunsPresentedCommand :
    (asked (port 5) (block [])).busy = false ∧ (asked (port 5) (block [])).hostNow.rst = false ∧
    (asked (port 5) (block [])).presented = some (.cksum (words [0x4000, 1])) ∧
    stepCount (.cksum (words [0x4000, 1])) = 1 ∧
    (asked (port 4) (block [])).presented = some .burstb ∧ commandProgram .burstb ≠ [] := by decide
theorem witness_FetchWordIsNextInstruction :
    decodeTableWord 4 0xC = some (.scaleDvel 0) ∧ (block []).cfg.hasScl = true ∧
    (Instr.scaleDvel 0).isCommand = true ∧
    decodeTableWord 16 0xFFFF = some (.wrHi 0x7F 0xFF) ∧
    (Instr.wrHi 0x7F 0xFF).isCommand = false := by decide
theorem witness_StepsOfACommandAreItsExec :
    (asked (port 4) (block b1)).Quiescent ∧
    (asked (port 4) (block b1)).presented = some .burstb ∧
    (asked (port 4) (block b1)).NoReset (stepCount .burstb) ∧
    ((asked (port 4) (block b1)).bus.play (commandProgram .burstb)).isSome = true ∧
    (asked (port 6) (block [])).NoReset (stepCount (.valid (words []))) ∧
    ((block []).bus.play (commandProgram (.valid (words [])))).isSome = true := by decide
theorem witness_BusCommandIsBusyUntilItsLastStep :
    (asked (port 1) (block [1, 2, 3, 4])).Quiescent ∧
    (asked (port 1) (block [1, 2, 3, 4])).presented = some (.read 0x60) ∧
    (asked (port 1) (block [1, 2, 3, 4])).NoReset (stepCount (.read 0x60)) ∧
    commandProgram (.read 0x60) ≠ [] ∧
    ((asked (port 1) (block [1, 2, 3, 4])).bus.play (commandProgram (.read 0x60))).isSome = true ∧
    0 < 11 ∧ 11 < stepCount (.read 0x60) := by decide
theorem witness_TwoStepsOfAFrameAreItsExec :
    (inFlight .burstw 21 true (block [1, 2])).frameDue = some .fill ∧
    (inFlight .burstw 21 true (block [1, 2])).seld = true ∧
    (inFlight .burstw 21 true (block [1, 2])).NoReset 2 ∧
    ((inFlight .burstw 21 true (block [1, 2])).bus.play (frameProgram .fill)).isSome = true ∧
    (inFlight .write 6 true (block [1, 2])).frameDue = some (.wrHi 1 0) := by decide
theorem witness_ExecAgreesWithBigStep :
    (block [1, 2, 3, 4]).Quiescent ∧ commandProgram (.write 0x7F 0x8000) ≠ [] ∧
    (block [1, 2, 3, 4]).bus.play (commandProgram (.write 0x7F 0x8000)) =
      some ([1, 2, 3, 4], .script [] 0) := by decide
theorem witness_SentBytesIgnoreReceivedBytes :
    (block b1).Quiescent ∧ ((block b1).bus.play (commandProgram .burstw)).isSome = true ∧
    ((block (List.replicate 22 0)).bus.play (commandProgram .burstw)).isSome = true ∧
    Instr.burstw.isCommand = true := by decide
theorem witness_UnansweredCommandStaysInFlight :
    deadBlock.Quiescent ∧ deadBlock.bus = .script (none :: []) 0 ∧
    commandProgram .burstb ≠ [] := by decide
theorem witness_ReadReturnsSecondFrame :
    (block [1, 2, 0x80, 0]).Quiescent ∧
    (block [1, 2, 0x80, 0]).bus.play (prog .read 0x7F 0) =
      some ([1, 2, 0x80, 0], .script [] 0) := by decide
theorem witness_WriteSendsLowThenHighByte :
    (block [1, 2, 3, 4]).Quiescent ∧
    (block [1, 2, 3, 4]).bus.play (prog .write 0x7F 0x8000) =
      some ([1, 2, 3, 4], .script [] 0) := by decide
/-- For BURSTW and BURSTB: the twenty bytes after the trigger's two. -/
theorem witness_BurstwReturnsTenWords :
    (block (List.replicate 22 0xFF)).Quiescent ∧
    (block (List.replicate 22 0xFF)).bus.play (prog .burstw 0 0) =
      some (0xFF :: 0xFF :: (Vector.replicate 20 0xFF).toList, .script [] 0) := by decide
theorem witness_BurstbReturnsTwentyBytes :
    (block (List.replicate 22 0)).Quiescent ∧
    (block (List.replicate 22 0)).bus.play (prog .burstw 0 0) =
      some (0 :: 0 :: (Vector.replicate 20 0).toList, .script [] 0) := by decide
theorem witness_BurstFormsAgree :
    (block b1).Quiescent ∧ ((block b1).bus.play (prog .burstw 0 0)).isSome = true := by decide
theorem witness_ChecksumCommandsRespond : (block []).busy = false := rfl
theorem witness_ScaleCommandsRespond :
    (block []).busy = false ∧ (block []).cfg.hasScl = true := by decide
theorem witness_ScaleCommandsAbsentWithoutUnit :
    noScl.cfg.hasScl = false ∧ (Instr.scaleDvel 0xFFFF).needsScl = true := by decide
theorem witness_WriteFramesSendAddressThenData :
    selected.seld = true ∧
    selected.bus.play [.tx (0x80 ||| (0x7F : Addr).setWidth 8), .tx 0xFF] =
      some ([1, 2], .script [] 0) := by decide
theorem witness_RequestAndTriggerFramesSendTwoBytes :
    selected.seld = true ∧
    selected.bus.play [.tx ((0x7F : Addr).setWidth 8), .tx 0x00] = some ([1, 2], .script [] 0) ∧
    selected.bus.play [.tx 0x68, .tx 0x00] = some ([1, 2], .script [] 0) := by decide
/-- In the response phase, where both bytes are kept, and outside it, where neither is. -/
theorem witness_FillFrameKeepsResponseBytes :
    (inFlight .burstb 21 true (block [1, 2])).seld = true ∧
    (inFlight .burstb 21 true (block [1, 2])).bus.play [.tx 0x00, .tx 0x00] =
      some ([1, 2], .script [] 0) ∧
    (inFlight .burstb 21 true (block [1, 2])).receiveIndex 22 = some 19 ∧
    selected.receiveIndex selected.ph = none := by decide
theorem witness_FramesNeedASelectedBus :
    Instr.fill.isCommand = false ∧ (block []).seld = false := by decide
theorem witness_UnansweredFrameChangesNothing :
    Instr.trig.isCommand = false ∧ ({ deadBlock with seld := true } : State).seld = true ∧
    ({ deadBlock with seld := true } : State).bus = .script (none :: []) 0 := by decide
theorem witness_DecodeOfEncode :
    (Instr.wrHi 0x7F 0xFF).wf false = true ∧ (Instr.scaleDvel 0x8000).wf true = true ∧
    (Instr.write 0x7F 0xFFFF).wf false = true := by decide
theorem witness_DecodedCommandIsWellFormed :
    decodeCommand true (port 0xC) = .ok (.scaleDvel 0x1234) := rfl
theorem witness_BusTraceDecodesToFramesSent :
    (run 20 (.read 0x68) [1, 2, 3, 4]).isSome = true ∧ (run 20 .burstb b1).isSome = true := by decide
theorem witness_OddWriteSendsOneAddressTwice : (0x7F : Addr).getLsbD 0 = true := by decide
theorem witness_TransactionsAndEventCounts :
    (run 20 (.write 0x7F 0xFFFF) [1, 2, 3, 4]).isSome = true ∧
    (run 20 .burstw b1).isSome = true := by decide
theorem witness_ChecksumIsPermutationInvariant :
    (bytesOf #v[0x1234, 0, 0, 0, 0, 0, 0, 0, 0x00FF]).Perm
      (bytesOf #v[0x3412, 0xFF00, 0, 0, 0, 0, 0, 0, 0]) := by decide
theorem witness_ValidComparesPatterns :
    (words [0, 0, 0, 0, 0, 0, 0, 0, 0, 0x2000])[9].extractLsb' 13 3 ≠ 0#3 := by decide
theorem witness_ValidDetectsExactlySumChanges :
    validBit (words (k5 ++ [0x0566])) = true := by decide
theorem witness_ScaleResultsAreFinite : dvelConst ∈ scaleConsts := by decide
theorem witness_FixtureReadsBackWrittenValue :
    let dev : DevStub := { DevStub.start (Vector.replicate 9 0) with mem := [(0x7F, 1)] }
    ({ block [] with bus := .stub dev } : State).Quiescent ∧
    ({ block [] with bus := .stub dev } : State).bus = .stub dev ∧
    Memory.wf dev.mem = true ∧ (0x7E : Addr).getLsbD 0 = false ∧
    (0x68 : Addr).getLsbD 0 = false := by decide

end Sys2Proof.Tests
end

section
/-! The SCALE commands on an instance without unit `SCL` (spec/00_scope.md R12, spec/30_encoding.md R97). -/

namespace Sys2Proof.Machine

/-- The SCALE commands share one meaning: they differ in the constant alone (R201 to R205). -/
theorem exec_eq_scaleCommand {i : Instr} (s : State) (h : i.needsScl = true) :
    ∃ k r, exec i s = scaleCommand i k r s := by
  cases i with
  | scaleAccel r => exact ⟨accelConst, r, rfl⟩
  | scaleGyro r => exact ⟨gyroConst, r, rfl⟩
  | scaleTemp r => exact ⟨tempConst, r, rfl⟩
  | scaleDang r => exact ⟨dangConst, r, rfl⟩
  | scaleDvel r => exact ⟨dvelConst, r, rfl⟩
  | _ => exact absurd h Bool.false_ne_true

theorem scaleCommand_of_not_hasScl {s : State} (c : Instr) (k : ScaleConst) (r : Word16)
    (h : s.cfg.hasScl = false) : scaleCommand c k r s = .next s := by
  simp [scaleCommand_eq, h]

/-- Settles O39: a command that needs unit `SCL` is a `scaleCommand`, and that does nothing without it. -/
theorem scaleCommandsAbsentWithoutUnit : Obligations.ScaleCommandsAbsentWithoutUnit := by
  intro i s hcfg hi
  obtain ⟨k, r, hexec⟩ := exec_eq_scaleCommand s hi
  exact hexec.trans (scaleCommand_of_not_hasScl i k r hcfg)

end Sys2Proof.Machine
end

section
/-! What one step does, as one list of cases (spec/40_sequencer.md R111 to R116): an answered micro-op is
told by its event and by the phase of the bus it needs and leaves. -/

namespace Sys2Proof.Machine

/-! ### Micro-ops by their events -/

/-- The event of a micro-op, `i` the byte received if it is a transfer (R16, R111). -/
def MicroOp.event (us : Nat) (i : Byte) : MicroOp → Event
  | .sel => .sel
  | .tx o | .xr o _ => .xfer o i
  | .desel => .desel
  | .stall => .delay us

theorem selectedStep_event (us : Nat) (i : Byte) (m : MicroOp) :
    selectedStep (decide (needsPhase m = .selected)) (m.event us i) =
      decide (leavesPhase m = .selected) := by
  cases m <;> rfl

theorem busPhaseStep_event (us : Nat) (i : Byte) (m : MicroOp) :
    busPhaseStep us (needsPhase m) (m.event us i) = leavesPhase m := by
  cases m <;> simp [needsPhase, leavesPhase, MicroOp.event, busPhaseStep]

theorem portPhaseStep_event (us : Nat) (i : Byte) (m : MicroOp) (p : PortPhase) :
    portPhaseStep p (m.event us i) = p := by
  cases m <;> rfl

/-- `t` is `s` with the enabled micro-op `m` done, `i` the byte received if it is a transfer: what R111 and
R114 say of every micro-op alike. -/
structure State.MicroOpTo (s : State) (m : MicroOp) (i : Byte) (t : State) : Prop where
  enabled : s.seld = decide (needsPhase m = .selected)
  seld : t.seld = decide (leavesPhase m = .selected)
  ph : t.ph = s.ph + 1
  busy : t.busy = s.busy
  program : t.program = s.program
  cfg : t.cfg = s.cfg
  host : t.host = s.host
  trace : t.trace = s.trace ++ [m.event s.cfg.tStallUs i]

/-- A micro-op is done, or it is a transfer without an answer, and the transport alone changes (R121). -/
theorem microOp_done_or_held {m : MicroOp} {s t : State} (h : microOp m s = .next t) :
    (∃ i, s.MicroOpTo m i t) ∨ ∃ b, t = s.setBus b := by
  obtain ⟨rfl, hs, rfl⟩ | ⟨rfl, hs, rfl⟩ | ⟨rfl, hs, rfl⟩ | ⟨o, i, rfl, hs, -, rfl⟩ |
    ⟨o, k, i, rfl, hs, -, rfl⟩ | ⟨o, -, -, -, rfl⟩ := microOp_next h
  · exact .inl ⟨0, ⟨hs, rfl, rfl, rfl, rfl, rfl, rfl, rfl⟩⟩
  · exact .inl ⟨0, ⟨hs, rfl, rfl, rfl, rfl, rfl, rfl, rfl⟩⟩
  · exact .inl ⟨0, ⟨hs, hs, rfl, rfl, rfl, rfl, rfl, rfl⟩⟩
  · exact .inl ⟨i, ⟨hs, hs, rfl, rfl, rfl, rfl, rfl, rfl⟩⟩
  · exact .inl ⟨i, ⟨hs, hs, rfl, rfl, rfl, rfl, rfl, rfl⟩⟩
  · exact .inr ⟨_, rfl⟩

/-! ### The micro-ops done so far -/

theorem State.done_of_end {s : State} (h : s.ph = s.program.length) : s.done = s.program := by
  rw [State.done, h, List.take_length]

theorem State.done_of_ph_zero {s : State} (h : s.ph = 0) : s.done = [] := by
  rw [State.done, h, List.take_zero]

theorem State.phaseAfter_done_of_end {s : State} (h : s.ph = s.program.length) :
    phaseAfter s.done = .ready := by
  rw [State.done_of_end h]
  exact phaseAfter_prog s.op s.a s.d

theorem State.phaseAfter_done_of_ph_zero {s : State} (h : s.ph = 0) : phaseAfter s.done = .ready := by
  rw [State.done_of_ph_zero h]
  rfl

theorem State.phaseAfter_done_of_next {s : State} {m : MicroOp} (h : s.program[s.ph]? = some m) :
    phaseAfter s.done = needsPhase m :=
  prog_needsPhase h

theorem State.MicroOpTo.done {s t : State} {m : MicroOp} {i : Byte} (h : s.MicroOpTo m i t)
    (hm : s.program[s.ph]? = some m) : t.done = s.done ++ [m] := by
  rw [State.done, h.program, h.ph, take_succ_of_getElem? hm, State.done]

theorem State.MicroOpTo.phaseAfter_done {s t : State} {m : MicroOp} {i : Byte}
    (h : s.MicroOpTo m i t) (hm : s.program[s.ph]? = some m) :
    phaseAfter t.done = leavesPhase m := by
  rw [h.done hm]
  exact phaseAfter_snoc (State.phaseAfter_done_of_next hm)

/-! ### Everything a step can do -/

/-- The next states of `s`, one constructor for each kind of step. -/
inductive State.StepTo (s : State) : State → Prop
  /-- reset overrides everything (R250) -/
  | reset (hr : s.hostNow.rst = true) : s.StepTo s.tick.doReset
  /-- the sequencer does the micro-op at `PH` (R114) -/
  | microOp {m : MicroOp} {i : Byte} {t : State} (hb : s.busy = true)
      (hm : s.program[s.ph]? = some m) (h : s.tick.MicroOpTo m i t) : s.StepTo t
  /-- the sequencer waits for an answer (R121) -/
  | held (hb : s.busy = true) (b : Transport) : s.StepTo (s.tick.setBus b)
  /-- the end of the command in flight (R115) -/
  | finish (hb : s.busy = true) (hp : s.ph = s.program.length) : s.StepTo s.tick.finish
  /-- acceptance of a bus command (R113) -/
  | accept (hb : s.busy = false) (op : BusOp) (c : Instr) (a : Addr) (d : Word16) :
      s.StepTo (accept op c a d s.tick)
  /-- a pure command (R116) -/
  | pure (hb : s.busy = false) (c : Instr) (r : Response) :
      s.StepTo ((s.tick.emit (.cmd c)).respond r)
  /-- the block stays idle (R97, R251) -/
  | idle (hb : s.busy = false) : s.StepTo s.tick

theorem stepTo_of_step {s t : State} (h : step s = .next t) : s.StepTo t := by
  obtain ⟨hr, rfl⟩ | ⟨-, hb, hseq⟩ | ⟨-, hb, -, rfl⟩ | ⟨c, -, hb, -, hc⟩ := step_next h
  · exact .reset hr
  · obtain ⟨m, hm, hop⟩ | ⟨hp, rfl⟩ := sequencerStep_next hseq
    · obtain ⟨i, hi⟩ | ⟨b, rfl⟩ := microOp_done_or_held hop
      · exact .microOp hb hm hi
      · exact .held hb b
    · exact .finish hb hp
  · exact .idle hb
  · obtain ⟨op, a, d, rfl⟩ | ⟨r, rfl⟩ | rfl := startCommand_next (s := s.tick) hb hc
    · exact .accept hb op c a d
    · exact .pure hb c r
    · exact .idle hb

end Sys2Proof.Machine
end

section
/-! R37 (a) to (c): `PH` and `SELD` against the micro-program and the trace. -/

namespace Sys2Proof.Machine

theorem State.inv_of_idle {s : State} (hb : s.busy = false) (hs : s.seld = false)
    (ht : traceSelected s.trace = false) : s.Inv :=
  ⟨fun _ => hs, fun h => absurd (hb.symm.trans h) Bool.false_ne_true, hs.trans ht.symm⟩

theorem State.inv_of_busy {s : State} (hb : s.busy = true) (hl : s.ph ≤ s.program.length)
    (hs : s.seld = decide (phaseAfter s.done = .selected)) (ht : s.seld = traceSelected s.trace) :
    s.Inv :=
  ⟨fun h => absurd (h.symm.trans hb) Bool.false_ne_true,
    fun _ => ⟨hl, by rw [hs, decide_eq_true_iff]⟩, ht⟩

/-- At the end of the micro-program the bus is deselected (R112). -/
theorem State.Inv.seld_of_end {s : State} (h : s.Inv) (hb : s.busy = true)
    (hp : s.ph = s.program.length) : s.seld = false := by
  obtain ⟨-, hbusy, -⟩ := h
  obtain ⟨-, hseld⟩ := hbusy hb
  rw [State.phaseAfter_done_of_end hp] at hseld
  simpa using hseld

/-- The `Desel` of a reset leaves the trace deselected (R250). -/
theorem traceSelected_releaseBus (es : List Event) :
    traceSelected (es ++ releaseBus (traceSelected es)) = false := by
  cases h : traceSelected es with
  | true => rw [releaseBus_true, traceSelected_snoc]; rfl
  | false => rw [releaseBus_false, List.append_nil, h]

/-- `Cmd` and `Rsp` say nothing of the bus. -/
theorem traceSelected_cmd (es : List Event) (c : Instr) :
    traceSelected (es ++ [.cmd c]) = traceSelected es := traceSelected_snoc es _

theorem traceSelected_rsp (es : List Event) (r : Response) :
    traceSelected (es ++ [.rsp r]) = traceSelected es := traceSelected_snoc es _

/-- Settles O6, by the kinds of step: a micro-op leaves `SELD` as the phase after it says. -/
theorem stepKeepsInvariant : Obligations.StepKeepsInvariant := by
  intro s t hinv hstep
  obtain ⟨hidle, hbusy, htrace⟩ := hinv
  cases stepTo_of_step hstep with
  | reset hr =>
    refine State.inv_of_idle rfl rfl ?_
    rw [State.doReset_trace, State.tick_trace, State.tick_seld, htrace]
    exact traceSelected_releaseBus s.trace
  | @microOp m i _ hb hm h =>
    refine State.inv_of_busy (h.busy.trans hb) ?_ ?_ ?_
    · rw [h.program, h.ph]
      exact lt_length_of_getElem? hm
    · rw [h.phaseAfter_done hm, h.seld]
    · have hsel : traceSelected s.tick.trace = decide (needsPhase m = .selected) :=
        htrace.symm.trans h.enabled
      rw [h.seld, h.trace, traceSelected_snoc, hsel, selectedStep_event]
  | held hb b => exact ⟨hidle, hbusy, htrace⟩
  | finish hb hp =>
    have hs : s.seld = false := State.Inv.seld_of_end ⟨hidle, hbusy, htrace⟩ hb hp
    refine State.inv_of_idle rfl hs ?_
    rw [State.finish_trace, traceSelected_rsp]
    exact htrace.symm.trans hs
  | accept hb op c a d =>
    refine State.inv_of_busy rfl (Nat.zero_le _) ?_ ?_
    · rw [State.phaseAfter_done_of_ph_zero rfl]
      exact hidle hb
    · rw [accept_trace, traceSelected_cmd]
      exact htrace
  | pure hb c r =>
    refine State.inv_of_idle hb (hidle hb) ?_
    rw [State.respond_trace, State.emit_trace, traceSelected_rsp, traceSelected_cmd]
    exact htrace.symm.trans (hidle hb)
  | idle hb => exact ⟨hidle, hbusy, htrace⟩

end Sys2Proof.Machine
end

section
/-! R37 (d) and R38: the bus protocol and the port's alternation against the command in flight. -/

namespace Sys2Proof.Machine

theorem State.ResetsClean.idle_of_rst {s : State} (h : s.ResetsClean)
    (hr : s.hostNow.rst = true) : s.busy = false := by
  by_contra hb
  have hclean : s.hostNow.rst = false := h (by simpa using hb)
  exact Bool.false_ne_true (hclean.symm.trans hr)

/-- Settles O7, by the kinds of step: each micro-op takes the pattern from the phase it needs to the phase it
leaves. -/
theorem stepKeepsStallProtocol : Obligations.StepKeepsStallProtocol := by
  intro s t hinv hstall hclean hstep
  unfold State.StallInv at hstall ⊢
  cases stepTo_of_step hstep with
  | reset hr =>
    have hb : s.busy = false := State.ResetsClean.idle_of_rst hclean hr
    obtain ⟨hidle, -, -⟩ := hinv
    rw [State.busPlace_idle hb] at hstall
    rw [State.busPlace_idle rfl, State.doReset_trace, State.tick_seld, hidle hb, releaseBus_false,
      List.append_nil]
    exact hstall
  | @microOp m i _ hb hm h =>
    rw [State.busPlace_busy hb, State.phaseAfter_done_of_next hm] at hstall
    rw [State.busPlace_busy (h.busy.trans hb), h.phaseAfter_done hm, h.cfg, h.trace, busPhase_snoc,
      State.tick_cfg, State.tick_trace, hstall, busPhaseStep_event]
  | held hb b => exact hstall
  | finish hb hp =>
    rw [State.busPlace_busy hb, State.phaseAfter_done_of_end hp] at hstall
    rw [State.busPlace_idle rfl, State.finish_trace, busPhase_snoc]
    exact hstall
  | accept hb op c a d =>
    rw [State.busPlace_idle hb] at hstall
    rw [State.busPlace_busy rfl, State.phaseAfter_done_of_ph_zero rfl, accept_trace, busPhase_snoc]
    exact hstall
  | pure hb c r =>
    have hb' : ((s.tick.emit (.cmd c)).respond r).busy = false := hb
    rw [State.busPlace_idle hb] at hstall
    rw [State.busPlace_idle hb', State.respond_trace, State.emit_trace, busPhase_snoc, busPhase_snoc]
    exact hstall
  | idle hb => exact hstall

/-- A reset records nothing that the port's alternation looks at (R250, R252). -/
theorem portPhase_releaseBus (es : List Event) (b : Bool) :
    portPhase (es ++ releaseBus b) = portPhase es := by
  cases b with
  | true => exact portPhase_snoc es .desel
  | false => rw [releaseBus_false, List.append_nil]

/-- Settles O9, by the kinds of step: only acceptance, the end and a pure command touch the port. -/
theorem stepKeepsOneResponsePerCommand : Obligations.StepKeepsOneResponsePerCommand := by
  intro s t hport hclean hstep
  unfold State.PortInv at hport ⊢
  cases stepTo_of_step hstep with
  | reset hr =>
    have hb : s.busy = false := State.ResetsClean.idle_of_rst hclean hr
    rw [State.portPlace_idle hb] at hport
    rw [State.portPlace_idle rfl, State.doReset_trace, portPhase_releaseBus]
    exact hport
  | @microOp m i _ hb hm h =>
    rw [State.portPlace_busy hb] at hport
    rw [State.portPlace_busy (h.busy.trans hb), h.trace, portPhase_snoc, portPhaseStep_event]
    exact hport
  | held hb b => exact hport
  | finish hb hp =>
    rw [State.portPlace_busy hb] at hport
    rw [State.portPlace_idle rfl, State.finish_trace, portPhase_snoc, State.tick_trace, hport]
    rfl
  | accept hb op c a d =>
    rw [State.portPlace_idle hb] at hport
    rw [State.portPlace_busy rfl, accept_trace, portPhase_snoc, State.tick_trace, hport]
    rfl
  | pure hb c r =>
    have hb' : ((s.tick.emit (.cmd c)).respond r).busy = false := hb
    rw [State.portPlace_idle hb] at hport
    rw [State.portPlace_idle hb', State.respond_trace, State.emit_trace, portPhase_snoc,
      portPhase_snoc, State.tick_trace, hport]
    rfl
  | idle hb => exact hport

/-- Settles O11, by the kinds of step. -/
theorem stepKeepsConstants : Obligations.StepKeepsConstants := by
  intro s t hstep
  cases stepTo_of_step hstep with
  | microOp hb hm h => exact ⟨h.cfg, h.host⟩
  | reset | held | finish | accept | pure | idle => exact ⟨rfl, rfl⟩

end Sys2Proof.Machine
end

section
/-! R37 (d) on lists of events: what the pattern says of neighbours in a bus trace. -/

namespace Sys2Proof.Machine

theorem busPhaseStep_of_not_isBus {e : Event} (us : Nat) (p : BusPhase) (h : e.isBus = false) :
    busPhaseStep us p e = p := by
  cases e with
  | cmd | rsp => rfl
  | sel | desel | xfer | delay => exact absurd h.symm Bool.false_ne_true

/-- `Cmd` and `Rsp` leave the pattern where it is: a trace stands where its bus trace does. -/
theorem busPhase_busTrace (us : Nat) (es : List Event) :
    busPhase us (busTrace es) = busPhase us es := by
  unfold busPhase busTrace
  rw [List.foldl_filter]
  congr 1
  funext p e
  split
  · rfl
  · next h => exact (busPhaseStep_of_not_isBus us p (by simpa using h)).symm

theorem isBus_of_getElem?_busTrace {es : List Event} {i : Nat} {e : Event}
    (h : (busTrace es)[i]? = some e) : e.isBus = true :=
  (List.mem_filter.1 (List.mem_of_getElem? h)).2

theorem busPhaseStep_broken (us : Nat) (e : Event) : busPhaseStep us .broken e = .broken := by
  cases e <;> simp [busPhaseStep]

theorem busPhase_append_of_broken {us : Nat} {es : List Event} (fs : List Event)
    (h : busPhase us es = .broken) : busPhase us (es ++ fs) = .broken := by
  induction fs using List.reverseRecOn with
  | nil => rw [List.append_nil, h]
  | append_singleton fs e ih => rw [← List.append_assoc, busPhase_snoc, ih, busPhaseStep_broken]

/-- A broken pattern stays broken. -/
theorem busPhase_take_ne_broken {us : Nat} {es : List Event} (n : Nat)
    (h : busPhase us es ≠ .broken) : busPhase us (es.take n) ≠ .broken := by
  intro hb
  have := busPhase_append_of_broken (es.drop n) hb
  rw [List.take_append_drop] at this
  exact h this

theorem busPhase_take_succ {us : Nat} {es : List Event} {i : Nat} {e : Event}
    (h : es[i]? = some e) :
    busPhase us (es.take (i + 1)) = busPhaseStep us (busPhase us (es.take i)) e := by
  rw [take_succ_of_getElem? h, busPhase_snoc]

theorem busPhaseStep_desel {us : Nat} {p : BusPhase} (h : busPhaseStep us p .desel ≠ .broken) :
    busPhaseStep us p .desel = .owesDelay := by
  simp only [busPhaseStep] at h ⊢
  split at h
  · next hp => rw [if_pos hp]
  · exact absurd rfl h

/-- After a `Desel` nothing but its `Delay` may come. -/
theorem eq_delay_of_owesDelay {us : Nat} {e : Event} (he : e.isBus = true)
    (h : busPhaseStep us .owesDelay e ≠ .broken) : e = .delay us := by
  cases e with
  | delay t =>
    by_contra hne
    exact h (if_neg fun ⟨_, ht⟩ => hne (congrArg Event.delay ht))
  | sel | desel | xfer => exact absurd rfl h
  | cmd | rsp => exact absurd he Bool.false_ne_true

/-- Before a `Sel` nothing but a `Delay` may stand. -/
theorem eq_delay_of_step_ready {us : Nat} {p : BusPhase} {e : Event} (he : e.isBus = true)
    (h : busPhaseStep us p e = .ready) : e = .delay us := by
  cases e with
  | delay t =>
    simp only [busPhaseStep] at h
    split at h
    · next ht => rw [ht.2]
    · cases h
  | sel | desel | xfer =>
    simp only [busPhaseStep] at h
    split at h <;> cases h
  | cmd | rsp => exact absurd he Bool.false_ne_true

theorem eq_ready_of_sel {us : Nat} {p : BusPhase} (h : busPhaseStep us p .sel ≠ .broken) :
    p = .ready := by
  by_contra hp
  exact h (if_neg hp)

/-- In an unbroken pattern a `Desel` leaves its `Delay` owing. -/
theorem busPhase_take_of_desel {us : Nat} {es : List Event} {i : Nat}
    (h : busPhase us es ≠ .broken) (hi : es[i]? = some .desel) :
    busPhase us (es.take (i + 1)) = .owesDelay := by
  have hne := busPhase_take_ne_broken (i + 1) h
  rw [busPhase_take_succ hi] at hne ⊢
  exact busPhaseStep_desel hne

theorem stallBetween_busTrace {us : Nat} {es : List Event}
    (h : busPhase us (busTrace es) ≠ .broken) : StallBetween us (busTrace es) := by
  constructor
  · intro i e hi he
    have hne := busPhase_take_ne_broken (i + 1 + 1) h
    rw [busPhase_take_succ he, busPhase_take_of_desel h hi] at hne
    exact eq_delay_of_owesDelay (isBus_of_getElem?_busTrace he) hne
  · intro i e hi he
    have hne := busPhase_take_ne_broken (i + 1 + 1) h
    rw [busPhase_take_succ hi] at hne
    have hready := eq_ready_of_sel hne
    rw [busPhase_take_succ he] at hready
    exact eq_delay_of_step_ready (isBus_of_getElem?_busTrace he) hready

/-- A trace that may go on with a `Sel` does not end in a `Desel`. -/
theorem exists_after_desel {us : Nat} {es : List Event} {i : Nat} (h : busPhase us es = .ready)
    (hi : es[i]? = some .desel) : ∃ e, es[i + 1]? = some e := by
  cases hn : es[i + 1]? with
  | some e => exact ⟨e, rfl⟩
  | none =>
    have howes := busPhase_take_of_desel (us := us) (by rw [h]; decide) hi
    rw [List.take_of_length_le (List.getElem?_eq_none_iff.1 hn), h] at howes
    cases howes

/-- Settles O8: in an unbroken pattern a `Desel` owes its `Delay` and a `Sel` finds none owing, and at the
end none is left owing. -/
theorem stallProtocolPutsDelayBetween : Obligations.StallProtocolPutsDelayBetween := by
  intro us es h
  rw [← busPhase_busTrace] at h
  have hstall := stallBetween_busTrace h
  refine ⟨hstall, fun hready i hi => ?_⟩
  rw [← busPhase_busTrace] at hready
  obtain ⟨hafter, -⟩ := hstall
  obtain ⟨e, he⟩ := exists_after_desel hready hi
  rw [he, hafter i e hi he]

end Sys2Proof.Machine
end

section
/-! The command on the port: on a busy block it is ignored (R38), on an idle one the step starts it (R113,
R116). -/

namespace Sys2Proof.Machine

theorem scaleCommand_busy {c : Instr} {k : ScaleConst} {r : Word16} {s : State}
    (h : s.busy = true) : scaleCommand c k r s = .next s := by
  rw [scaleCommand_eq, pureCommand_busy h, ite_self]

/-- A command that is not accepted changes nothing (R38). -/
theorem exec_of_busy {c : Instr} {s : State} (hc : c.isCommand = true) (hb : s.busy = true) :
    exec c s = .next s := by
  cases c with
  | read | write | burstw | burstb => exact busCommand_busy hb
  | cksum | valid => exact pureCommand_busy hb
  | scaleAccel | scaleGyro | scaleTemp | scaleDang | scaleDvel => exact scaleCommand_busy hb
  | wrLo | wrHi | rq | fill | trig => exact absurd hc Bool.false_ne_true

/-- The step of a busy block looks at `rst` alone of what the host drives (R38, R250). -/
theorem step_of_busy {s : State} (hb : s.busy = true) :
    step s = if s.hostNow.rst then .next s.tick.doReset else sequencerStep s.tick := by
  rw [step, hb, if_pos rfl]

/-- Settles O21: a busy block's step never looks at the port. -/
theorem busyBlockIgnoresCommands : Obligations.BusyBlockIgnoresCommands := by
  intro s hb
  refine ⟨fun r p h => ?_, fun c hc => exec_of_busy hc hb⟩
  rw [step_of_busy (s := { s with host := ⟨r, some p⟩ :: h }) hb,
    step_of_busy (s := { s with host := ⟨r, none⟩ :: h }) hb]
  rfl

theorem startCommand_eq_exec {c : Instr} (s : State) (h : stepCount c = 1) :
    startCommand c s = exec c s := by
  cases c with
  | cksum | valid | scaleAccel | scaleGyro | scaleTemp | scaleDang | scaleDvel => rfl
  | read | write | burstw | burstb | wrLo | wrHi | rq | fill | trig => cases h

/-- A command with a micro-program is a bus command: it is accepted, and then run to its end (R113). -/
theorem startCommand_exec_of_commandProgram {c : Instr} {s : State} (hb : s.busy = false)
    (h : commandProgram c ≠ []) :
    ∃ t, startCommand c s = .next t ∧ exec c s = runToEnd maxSteps t := by
  cases c with
  | read | write | burstw | burstb => exact ⟨_, rfl, busCommand_idle hb⟩
  | cksum | valid | scaleAccel | scaleGyro | scaleTemp | scaleDang | scaleDvel | wrLo | wrHi | rq
  | fill | trig => exact absurd rfl h

/-- Settles O24: a pure command is done in its step, a bus command is accepted in it. -/
theorem stepRunsPresentedCommand : Obligations.StepRunsPresentedCommand := by
  intro s c hb hr hc
  have hstep := step_idle hr hb hc
  refine ⟨hstep, fun h1 => hstep.trans (startCommand_eq_exec s.tick h1), fun hp => ?_⟩
  rw [hstep]
  exact startCommand_exec_of_commandProgram (s := s.tick) hb hp

end Sys2Proof.Machine
end

section
/-! The state after reset (R36). -/

namespace Sys2Proof.Machine

/-- Settles O1: the rows of R36 and the constants of R9 and R10. -/
theorem resetLeavesBlockIdle : Obligations.ResetLeavesBlockIdle :=
  ⟨rfl, rfl, rfl, rfl, rfl, rfl, rfl, rfl, rfl⟩

/-- Settles O2: an idle, deselected block with an empty trace. -/
theorem resetMeetsInvariants : Obligations.ResetMeetsInvariants :=
  ⟨State.inv_of_idle rfl rfl rfl, rfl, rfl, rfl⟩

end Sys2Proof.Machine
end

section
/-! R20, R124: two runs that differ only in registers no rule reads. Each operation of the block takes states
that agree to states that agree. -/

namespace Sys2Proof.Machine

namespace State.Agrees

variable {s t : State}

theorem busy_eq (h : s.Agrees t) : s.busy = t.busy := h.1

theorem seld_eq (h : s.Agrees t) : s.seld = t.seld := by obtain ⟨-, hs, -⟩ := h; exact hs

theorem cfg_eq (h : s.Agrees t) : s.cfg = t.cfg := by obtain ⟨-, -, hc, -⟩ := h; exact hc

theorem host_eq (h : s.Agrees t) : s.host = t.host := by obtain ⟨-, -, -, -, hh, -⟩ := h; exact hh

theorem bus_eq (h : s.Agrees t) : s.bus = t.bus := by obtain ⟨-, -, -, -, -, hb, -⟩ := h; exact hb

theorem inFlight (h : s.Agrees t) (hb : s.busy = true) :
    s.op = t.op ∧ s.program = t.program ∧ s.ph = t.ph ∧
      ∀ k : Fin 20, s.hasReceived k = true → s.rx[k] = t.rx[k] := by
  obtain ⟨-, -, -, -, -, -, -, hf⟩ := h
  exact hf hb

/-- Idle states agree in everything but `OP`, `A`, `D`, `PH` and `RX`. -/
theorem of_idle (hs : s.busy = false) (ht : t.busy = false) (hseld : s.seld = t.seld)
    (hcfg : s.cfg = t.cfg) (hrsp : s.rsp = t.rsp) (hhost : s.host = t.host) (hbus : s.bus = t.bus)
    (htrace : s.trace = t.trace) : s.Agrees t :=
  ⟨hs.trans ht.symm, hseld, hcfg, hrsp, hhost, hbus, htrace,
    fun hb => absurd (hs.symm.trans hb) Bool.false_ne_true⟩

/-! ### Updates of the state -/

theorem tick (h : s.Agrees t) : s.tick.Agrees t.tick := by
  obtain ⟨hb, hs, hc, -, hh, hbus, ht, hf⟩ := h
  exact ⟨hb, hs, hc, rfl, congrArg List.tail hh, hbus, ht, hf⟩

theorem emit (e : Event) (h : s.Agrees t) : (s.emit e).Agrees (t.emit e) := by
  obtain ⟨hb, hs, hc, hr, hh, hbus, ht, hf⟩ := h
  exact ⟨hb, hs, hc, hr, hh, hbus, congrArg (· ++ [e]) ht, hf⟩

theorem setSeld (b : Bool) (h : s.Agrees t) : (s.setSeld b).Agrees (t.setSeld b) := by
  obtain ⟨hb, -, hc, hr, hh, hbus, ht, hf⟩ := h
  exact ⟨hb, rfl, hc, hr, hh, hbus, ht, hf⟩

theorem setBus (b : Transport) (h : s.Agrees t) : (s.setBus b).Agrees (t.setBus b) := by
  obtain ⟨hb, hs, hc, hr, hh, -, ht, hf⟩ := h
  exact ⟨hb, hs, hc, hr, hh, rfl, ht, hf⟩

theorem respond (r : Response) (h : s.Agrees t) : (s.respond r).Agrees (t.respond r) := by
  obtain ⟨hb, hs, hc, -, hh, hbus, ht, hf⟩ := h
  exact ⟨hb, hs, hc, rfl, hh, hbus, congrArg (· ++ [Event.rsp r]) ht, hf⟩

theorem putRx (k : Fin 20) (i : Byte) (h : s.Agrees t) : (s.putRx k i).Agrees (t.putRx k i) := by
  obtain ⟨hb, hs, hc, hr, hh, hbus, ht, hf⟩ := h
  refine ⟨hb, hs, hc, hr, hh, hbus, ht, fun hbusy => ?_⟩
  obtain ⟨hop, hprog, hph, hrx⟩ := hf hbusy
  refine ⟨hop, hprog, hph, fun j hj => ?_⟩
  have hold : s.rx[j] = t.rx[j] := hrx j hj
  simp only [putRx_rx, Fin.getElem_fin, Vector.getElem_set] at hold ⊢
  rw [hold]

theorem doReset (h : s.Agrees t) : s.doReset.Agrees t.doReset := by
  obtain ⟨-, hs, hc, -, hh, hbus, ht, -⟩ := h
  refine of_idle rfl rfl rfl hc rfl hh hbus ?_
  rw [doReset_trace, doReset_trace, ht, hs]

/-- Acceptance latches operands that give one micro-program: nothing has been received yet. -/
theorem accept {op : BusOp} {a a' : Addr} {d d' : Word16} (c : Instr)
    (hp : prog op a d = prog op a' d') (h : s.Agrees t) :
    (accept op c a d s).Agrees (accept op c a' d' t) := by
  obtain ⟨-, hs, hc, hr, hh, hbus, ht, -⟩ := h
  refine ⟨rfl, hs, hc, hr, hh, hbus, congrArg (· ++ [Event.cmd c]) ht, fun _ => ⟨rfl, hp, rfl, ?_⟩⟩
  intro k hk
  exact absurd hk Bool.false_ne_true

end State.Agrees

/-! ### Received bytes -/

/-- Whether a micro-op puts a byte into `RX[k]` (R124). -/
def MicroOp.receives (k : Fin 20) : MicroOp → Bool
  | .xr _ j => j == k
  | _ => false

theorem State.hasReceived_eq (s : State) (k : Fin 20) :
    s.hasReceived k = s.done.any (MicroOp.receives k) := rfl

theorem State.hasReceived_advance {s : State} {m : MicroOp} (k : Fin 20)
    (hm : s.program[s.ph]? = some m) :
    s.advance.hasReceived k = (s.hasReceived k || m.receives k) := by
  have hdone : s.advance.done = s.done ++ [m] := take_succ_of_getElem? hm
  rw [State.hasReceived_eq, hdone, List.any_append, State.hasReceived_eq]
  simp

/-- After a micro-op the bytes read agree if the one it received, if any, does. -/
theorem State.Agrees.advance {s t : State} {m : MicroOp} (h : s.Agrees t)
    (hm : s.program[s.ph]? = some m) (hrx : ∀ k, m.receives k = true → s.rx[k] = t.rx[k]) :
    s.advance.Agrees t.advance := by
  obtain ⟨hb, hs, hc, hr, hh, hbus, ht, hf⟩ := h
  refine ⟨hb, hs, hc, hr, hh, hbus, ht, fun hbusy => ?_⟩
  obtain ⟨hop, hprog, hph, hold⟩ := hf hbusy
  refine ⟨hop, hprog, congrArg (· + 1) hph, fun k hk => ?_⟩
  rw [State.hasReceived_advance k hm, Bool.or_eq_true] at hk
  exact hk.elim (hold k) (hrx k)

/-- Every place of `RX` that a response is made of has been received at the end (R28, R112). -/
theorem receives_of_prog_read (a : Addr) (d : Word16) :
    (prog .read a d).any (MicroOp.receives 0) = true ∧
      (prog .read a d).any (MicroOp.receives 1) = true := ⟨rfl, rfl⟩

theorem any_burstReceives (k : Fin 20) : burstReceives.any (MicroOp.receives k) = true :=
  List.any_eq_true.2 ⟨.xr fillByte k, List.mem_ofFn.2 ⟨k, rfl⟩, beq_self_eq_true k⟩

theorem receives_of_prog_burst {op : BusOp} (hop : op = .burstw ∨ op = .burstb) (a : Addr)
    (d : Word16) (k : Fin 20) : (prog op a d).any (MicroOp.receives k) = true := by
  rcases hop with rfl | rfl <;>
    simp only [prog, List.any_append, any_burstReceives, Bool.or_true, Bool.true_or]

/-- A response is made of bytes its command has received. -/
theorem responseOf_congr {op : BusOp} {rx rx' : Vector Byte 20} (a : Addr) (d : Word16)
    (h : ∀ k : Fin 20, (prog op a d).any (MicroOp.receives k) = true → rx[k] = rx'[k]) :
    responseOf op rx = responseOf op rx' := by
  have hburst (hop : op = .burstw ∨ op = .burstb) : rx = rx' :=
    Vector.ext fun i hi => h ⟨i, hi⟩ (receives_of_prog_burst hop a d ⟨i, hi⟩)
  cases op with
  | read =>
    obtain ⟨hrec0, hrec1⟩ := receives_of_prog_read a d
    have h0 : rx[0] = rx'[0] := h 0 hrec0
    have h1 : rx[1] = rx'[1] := h 1 hrec1
    rw [responseOf_read, responseOf_read, h0, h1]
  | write => rfl
  | burstw => rw [hburst (.inl rfl)]
  | burstb => rw [hburst (.inr rfl)]

/-- The end of a command delivers the same response (R115). -/
theorem State.Agrees.finish {s t : State} (hb : s.busy = true) (hp : s.ph = s.program.length)
    (h : s.Agrees t) : s.finish.Agrees t.finish := by
  obtain ⟨hop, -, -, hrx⟩ := h.inFlight hb
  have hresp : responseOf s.op s.rx = responseOf t.op t.rx := by
    rw [← hop]
    refine responseOf_congr s.a s.d fun k hk => hrx k ?_
    rw [State.hasReceived_eq, State.done_of_end hp]
    exact hk
  obtain ⟨-, hs, hc, -, hh, hbus, ht, -⟩ := h
  refine State.Agrees.of_idle rfl rfl hs hc ?_ hh hbus ?_
  · rw [State.finish_rsp, State.finish_rsp, hresp]
  · rw [State.finish_trace, State.finish_trace, hresp, ht]

/-! ### Operations -/

/-- Outcomes that agree: next states that do, or the same reason to stop. -/
inductive OutcomesAgree :
    Host.Outcome State Fault Refusal → Host.Outcome State Fault Refusal → Prop
  | next {s t : State} (h : s.Agrees t) : OutcomesAgree (.next s) (.next t)
  | fault (r : Fault) : OutcomesAgree (.fault r) (.fault r)
  | refused (r : Refusal) : OutcomesAgree (.refused r) (.refused r)

/-- A transfer, if what it does with the byte leaves states that agree. -/
theorem transferOp_agrees {o : Byte} {keep : Byte → State → State} {s t : State} (h : s.Agrees t)
    (hkeep : ∀ i b, ((keep i (s.setBus b)).advance).Agrees ((keep i (t.setBus b)).advance)) :
    OutcomesAgree (transferOp o keep s) (transferOp o keep t) := by
  unfold transferOp
  rw [← h.seld_eq, ← h.bus_eq]
  split
  · split
    · next i b _ => exact .next ((hkeep i b).emit _)
    · next b _ => exact .next (h.setBus b)
  · exact .fault _

theorem microOp_agrees {m : MicroOp} {s t : State} (h : s.Agrees t)
    (hm : s.program[s.ph]? = some m) : OutcomesAgree (microOp m s) (microOp m t) := by
  cases m with
  | sel =>
    simp only [microOp, ← h.seld_eq, ← h.bus_eq]
    split
    · exact .fault _
    · exact .next ((((h.setBus s.bus.select).setSeld true).advance hm (fun _ => nofun)).emit .sel)
  | tx o =>
    exact transferOp_agrees (keep := fun _ u => u) h fun _ b =>
      (h.setBus b).advance hm fun _ => nofun
  | xr o k =>
    refine transferOp_agrees h fun i b => ((h.setBus b).putRx k i).advance hm fun j hj => ?_
    obtain rfl : k = j := eq_of_beq hj
    simp
  | desel =>
    simp only [microOp, ← h.seld_eq]
    split
    · exact .next (((h.setSeld false).advance hm (fun _ => nofun)).emit .desel)
    · exact .fault _
  | stall =>
    simp only [microOp, ← h.seld_eq, ← h.cfg_eq]
    split
    · exact .fault _
    · exact .next ((h.advance hm (fun _ => nofun)).emit _)

theorem sequencerStep_agrees {s t : State} (h : s.Agrees t) (hb : s.busy = true) :
    OutcomesAgree (sequencerStep s) (sequencerStep t) := by
  obtain ⟨-, hprog, hph, -⟩ := h.inFlight hb
  unfold sequencerStep
  rw [← hprog, ← hph]
  split
  · next m hm => exact microOp_agrees h hm
  · split
    · next hp => exact .next (h.finish hb hp)
    · exact .fault _

/-- The response of a SCALE command under the constants `cfg`, none without unit `SCL` (R12, R97). -/
def scaleResponse (k : ScaleConst) (v : Word16) (cfg : Instance) : Option Response :=
  if cfg.hasScl then some (.scaled (scaleBy cfg.floatFmt k v)) else none

theorem scaleCommand_idle {s : State} (c : Instr) (k : ScaleConst) (v : Word16)
    (hb : s.busy = false) :
    scaleCommand c k v s = .next ((scaleResponse k v s.cfg).elim s (s.emit (.cmd c)).respond) := by
  rw [scaleCommand_eq, scaleResponse]
  split
  · exact pureCommand_idle hb
  · rfl

/-- What starting a command reads of the registers: a bus command keeps operands its micro-program does not
use, and a pure command's response depends on the constants alone (R23, R113, R116). -/
theorem startCommand_reads (c : Instr) :
    (∃ (op : BusOp) (a : State → Addr) (d : State → Word16),
      (∀ s, startCommand c s = .next (accept op c (a s) (d s) s)) ∧
      ∀ s t, prog op (a s) (d s) = prog op (a t) (d t)) ∨
    ∃ r : Instance → Option Response, ∀ s : State, s.busy = false →
      startCommand c s = .next ((r s.cfg).elim s (s.emit (.cmd c)).respond) := by
  cases c with
  | read a => exact .inl ⟨.read, fun _ => a, State.d, fun _ => rfl, fun _ _ => rfl⟩
  | write a d => exact .inl ⟨.write, fun _ => a, fun _ => d, fun _ => rfl, fun _ _ => rfl⟩
  | burstw => exact .inl ⟨.burstw, State.a, State.d, fun _ => rfl, fun _ _ => rfl⟩
  | burstb => exact .inl ⟨.burstb, State.a, State.d, fun _ => rfl, fun _ _ => rfl⟩
  | cksum w => exact .inr ⟨fun _ => some (.sum (cksum w)), fun _ hb => pureCommand_idle hb⟩
  | valid w => exact .inr ⟨fun _ => some (.valid (validBit w)), fun _ hb => pureCommand_idle hb⟩
  | scaleAccel v => exact .inr ⟨_, fun _ hb => scaleCommand_idle _ accelConst v hb⟩
  | scaleGyro v => exact .inr ⟨_, fun _ hb => scaleCommand_idle _ gyroConst v hb⟩
  | scaleTemp v => exact .inr ⟨_, fun _ hb => scaleCommand_idle _ tempConst v hb⟩
  | scaleDang v => exact .inr ⟨_, fun _ hb => scaleCommand_idle _ dangConst v hb⟩
  | scaleDvel v => exact .inr ⟨_, fun _ hb => scaleCommand_idle _ dvelConst v hb⟩
  | wrLo | wrHi | rq | fill | trig => exact .inr ⟨fun _ => none, fun _ _ => rfl⟩

theorem startCommand_agrees {s t : State} (c : Instr) (h : s.Agrees t) (hb : s.busy = false) :
    OutcomesAgree (startCommand c s) (startCommand c t) := by
  obtain ⟨op, a, d, hacc, hprog⟩ | ⟨r, hresp⟩ := startCommand_reads c
  · rw [hacc, hacc]
    exact .next (h.accept c (hprog s t))
  · rw [hresp s hb, hresp t (h.busy_eq.symm.trans hb), ← h.cfg_eq]
    cases r s.cfg with
    | none => exact .next h
    | some v => exact .next ((h.emit _).respond v)

theorem step_agrees {s t : State} (h : s.Agrees t) : OutcomesAgree (step s) (step t) := by
  have hnow : s.hostNow = t.hostNow := congrArg (List.headD · HostIn.quiet) h.host_eq
  have hpres : s.presented = t.presented := by
    rw [State.presented, State.presented, hnow, h.cfg_eq]
  unfold step
  rw [← hnow, ← h.busy_eq, ← hpres]
  split
  · exact .next h.tick.doReset
  · split
    · next hb => exact sequencerStep_agrees h.tick hb
    · next hb =>
      split
      · next c _ => exact startCommand_agrees c h.tick (by simpa using hb)
      · exact .next h.tick

/-- Settles O13: the two steps have outcomes that agree. -/
theorem unreadRegistersAreNeverObserved : Obligations.UnreadRegistersAreNeverObserved := by
  intro s t h
  have hstep := step_agrees h
  constructor
  · intro s' hs'
    rw [hs'] at hstep
    generalize step t = out at hstep
    cases hstep with
    | next hst => exact ⟨_, rfl, hst⟩
  · intro r hr
    rw [hr] at hstep
    generalize step t = out at hstep
    cases hstep with
    | fault => rfl

end Sys2Proof.Machine
end

section
/-! R68: what a step can do to the transport, and the canonical form of the fixture's memory. -/

namespace Sys2Proof.Machine

/-- A step of the block selects the transport, attempts one transfer, or leaves it alone (R15). -/
inductive Transport.StepTo (b : Transport) : Transport → Prop
  | unchanged : b.StepTo b
  | select : b.StepTo b.select
  | transfer (o : Byte) : b.StepTo (b.transfer o).2

theorem microOp_bus {m : MicroOp} {s t : State} (h : microOp m s = .next t) :
    s.bus.StepTo t.bus := by
  obtain ⟨-, -, rfl⟩ | ⟨-, -, rfl⟩ | ⟨-, -, rfl⟩ | ⟨o, i, -, -, -, rfl⟩ |
    ⟨o, k, i, -, -, -, rfl⟩ | ⟨o, -, -, -, rfl⟩ := microOp_next h
  · exact .select
  · exact .unchanged
  · exact .unchanged
  · exact .transfer o
  · exact .transfer o
  · exact .transfer o

theorem sequencerStep_bus {s t : State} (h : sequencerStep s = .next t) : s.bus.StepTo t.bus := by
  obtain ⟨m, -, hop⟩ | ⟨-, rfl⟩ := sequencerStep_next h
  · exact microOp_bus hop
  · exact .unchanged

/-- Starting a command is no bus event: the transport is used by the sequencer alone (R113, R116). -/
theorem startCommand_bus {c : Instr} {s t : State} (hb : s.busy = false)
    (h : startCommand c s = .next t) : t.bus = s.bus := by
  obtain ⟨op, a, d, rfl⟩ | ⟨r, rfl⟩ | rfl := startCommand_next hb h
  · rfl
  · rfl
  · rfl

theorem step_bus {s t : State} (h : step s = .next t) : s.bus.StepTo t.bus := by
  obtain ⟨-, rfl⟩ | ⟨-, -, hseq⟩ | ⟨-, -, -, rfl⟩ | ⟨c, -, hb, -, hc⟩ := step_next h
  · exact .unchanged
  · exact sequencerStep_bus (s := s.tick) hseq
  · exact .unchanged
  · rw [startCommand_bus (s := s.tick) hb hc]
    exact .unchanged

/-- The second byte of a write frame is the only one the fixture stores, and its address has seven bits. -/
theorem stubXfer_wf (o : Byte) {d : DevStub} (h : Memory.wf d.mem = true) :
    Memory.wf (stubXfer o d).2.mem = true := by
  unfold stubXfer
  split_ifs with hburst hfirst hwrite htrigger
  · exact h
  · exact h
  · exact Memory.write_wf o (d.held.setWidth 7).isLt h
  · exact h
  · exact h

theorem Transport.StepTo.memoryOk {b b' : Transport} (h : b.StepTo b') (hb : b.memoryOk = true) :
    b'.memoryOk = true := by
  cases h with
  | unchanged => exact hb
  | select =>
    cases b with
    | script answers draws => rfl
    | stub dev => exact hb
  | transfer o =>
    cases b with
    | script answers draws => cases answers <;> rfl
    | stub dev => exact stubXfer_wf o hb

/-- Settles O12: of what a step does to the transport, only a transfer can write the fixture's memory. -/
theorem stepKeepsFixtureMemoryCanonical : Obligations.StepKeepsFixtureMemoryCanonical :=
  fun _ _ hmem hstep => (step_bus hstep).memoryOk hmem

end Sys2Proof.Machine
end

section
/-! The two frames of a WRITE by the fields of a write frame (spec/30_encoding.md R82, R88). -/

namespace Sys2Proof.Machine

theorem append_zero_or (m l : Byte) : (m ++ 0#8 : Word16) ||| l.setWidth 16 = m ++ l := by
  have hl : l.setWidth 16 = (0#8 ++ l : Word16) :=
    BitVec.setWidth_eq_append (by decide)
  rw [hl, BitVec.or_append, BitVec.or_zero, BitVec.zero_or]

theorem addrWord_eq (a : Addr) : addrWord a = (1#1 ++ a : Byte) ++ 0#8 := by
  revert a
  decide

theorem addrWord_or_bit8 (a : Addr) :
    addrWord a ||| 0x0100 = addrWord (a ||| 1) := by
  revert a
  decide

theorem lowWord_eq_wrWord (a : Addr) (d : Word16) : lowWord a d = wrWord a (loByte d) := by
  rw [lowWord, addrWord_eq]
  exact append_zero_or _ _

theorem highWord_eq_wrWord (a : Addr) (d : Word16) :
    highWord a d = wrWord (a ||| 1) (hiByte d) := by
  rw [highWord, addrWord_or_bit8, addrWord_eq]
  exact append_zero_or _ _

theorem hiByte_wrWord (a : Addr) (b : Byte) : hiByte (wrWord a b) = 1#1 ++ a := hiByte_append _ b

theorem loByte_wrWord (a : Addr) (b : Byte) : loByte (wrWord a b) = b := loByte_append _ b

end Sys2Proof.Machine
end

section
/-! R68, R53: what the fixture makes of one frame, of the two frames of a WRITE and of the two of a READ. -/

namespace Sys2Proof.Machine

/-! ### A frame on the fixture -/

/-- The fixture after the first byte `o` of a transaction. -/
def stubHeld (o : Byte) (dev : DevStub) : DevStub :=
  { dev with cur := dev.latch, held := o, count := 1, burst := false }

theorem stubXfer_stubSel (o : Byte) (dev : DevStub) :
    stubXfer o (stubSel dev) = (hiByte dev.latch, stubHeld o dev) :=
  stubXfer_first rfl rfl

/-- Whatever the second byte does, the latch of the frame before it is what comes back (R68). -/
theorem stubXfer_stubHeld_fst (o p : Byte) (dev : DevStub) :
    (stubXfer p (stubHeld o dev)).1 = loByte dev.latch := by
  cases hw : (stubHeld o dev).held.getLsbD 7 with
  | true => rw [stubXfer_write rfl rfl hw]; rfl
  | false =>
    by_cases ht : (stubHeld o dev).count = 1 ∧ (stubHeld o dev).held = 0x68 ∧ p = 0x00
    · obtain ⟨-, hh, rfl⟩ := ht
      rw [stubXfer_trigger rfl rfl hh]; rfl
    · rw [stubXfer_request rfl rfl hw ht]; rfl

/-- The fixture after a two-byte transaction that sends `o`, then `p`. -/
def stubFrame (o p : Byte) (dev : DevStub) : DevStub := (stubXfer p (stubHeld o dev)).2

/-- A frame with bit 15 set stores its byte and clears the latch. -/
theorem stubFrame_write (a : Addr) (b : Byte) (dev : DevStub) :
    (stubFrame (1#1 ++ a) b dev).mem = Memory.write dev.mem a.toNat b ∧
      (stubFrame (1#1 ++ a) b dev).latch = 0 := by
  have hbit : (1#1 ++ a : Byte).getLsbD 7 = true := by revert a; decide
  have haddr : (1#1 ++ a : Byte).setWidth 7 = a := BitVec.setWidth_append_eq_right
  rw [stubFrame, stubXfer_write (d := stubHeld (1#1 ++ a) dev) rfl rfl hbit]
  exact ⟨congrArg (fun x : Addr => Memory.write dev.mem x.toNat b) haddr, rfl⟩

/-- A read request latches the register, but for `0x68`, which is the burst trigger (R100). -/
theorem stubFrame_request (a : Addr) (dev : DevStub) :
    (stubFrame (a.setWidth 8) fillByte dev).latch =
      if a = 0x68 then dev.latch else stubRegister dev.mem a := by
  have hbit : (a.setWidth 8).getLsbD 7 = false := by revert a; decide
  have haddr : (a.setWidth 8).setWidth 7 = a := by revert a; decide
  have hne : a ≠ 0x68 → a.setWidth 8 ≠ (0x68 : Byte) := by revert a; decide
  split
  · next h =>
    subst h
    rw [stubFrame, fillByte, stubXfer_trigger rfl rfl rfl]
    rfl
  · next h =>
    rw [stubFrame, stubXfer_request (d := stubHeld (a.setWidth 8) dev) rfl rfl hbit
      fun ⟨_, hh, _⟩ => hne h hh]
    exact congrArg (stubRegister dev.mem) haddr

/-! ### Micro-programs on the fixture -/

theorem play_xfer_stub {m : MicroOp} {o : Byte} (hm : m = .tx o ∨ ∃ k, m = .xr o k)
    (ms : List MicroOp) (dev : DevStub) :
    Transport.play (m :: ms) (.stub dev) =
      (Transport.play ms (.stub (stubXfer o dev).2)).map fun r =>
        ((stubXfer o dev).1 :: r.1, r.2) := by
  obtain rfl | ⟨k, rfl⟩ := hm <;> rfl

/-- A frame's transaction on the fixture: the latch comes back, high byte first. -/
theorem play_frame_stub {m n : MicroOp} {o p : Byte} (hm : m = .tx o ∨ ∃ k, m = .xr o k)
    (hn : n = .tx p ∨ ∃ k, n = .xr p k) (ms : List MicroOp) (dev : DevStub) :
    Transport.play (.sel :: m :: n :: .desel :: .stall :: ms) (.stub dev) =
      (Transport.play ms (.stub (stubFrame o p dev))).map fun r =>
        (hiByte dev.latch :: loByte dev.latch :: r.1, r.2) := by
  have hsel : Transport.play (.sel :: m :: n :: .desel :: .stall :: ms) (.stub dev) =
      Transport.play (m :: n :: .desel :: .stall :: ms) (.stub (stubSel dev)) := rfl
  have htail (b : Transport) :
      Transport.play (.desel :: .stall :: ms) b = Transport.play ms b := rfl
  rw [hsel, play_xfer_stub hm, stubXfer_stubSel, play_xfer_stub hn, stubXfer_stubHeld_fst, htail,
    Option.map_map]
  rfl

/-- The fixture after the two frames of a WRITE (R144). -/
def stubWrite (a : Addr) (d : Word16) (dev : DevStub) : DevStub :=
  stubFrame (1#1 ++ (a ||| 1)) (hiByte d) (stubFrame (1#1 ++ a) (loByte d) dev)

theorem play_write_stub (a : Addr) (d : Word16) (dev : DevStub) :
    ∃ ins, Transport.play (prog .write a d) (.stub dev) =
      some (ins, .stub (stubWrite a d dev)) := by
  rw [prog, lowWord_eq_wrWord, highWord_eq_wrWord, hiByte_wrWord, loByte_wrWord, hiByte_wrWord,
    loByte_wrWord, play_frame_stub (.inl rfl) (.inl rfl), play_frame_stub (.inl rfl) (.inl rfl)]
  exact ⟨_, rfl⟩

/-- The second frame of a READ receives what the first one left in the latch (R141). -/
theorem play_read_stub (a : Addr) (d : Word16) (dev : DevStub) :
    ∃ i j b, Transport.play (prog .read a d) (.stub dev) =
      some ([i, j, hiByte (stubFrame (a.setWidth 8) fillByte dev).latch,
        loByte (stubFrame (a.setWidth 8) fillByte dev).latch], b) := by
  rw [prog, play_frame_stub (.inl rfl) (.inl rfl),
    play_frame_stub (.inr ⟨0, rfl⟩) (.inr ⟨1, rfl⟩)]
  exact ⟨_, _, _, rfl⟩

/-! ### Commands on the fixture -/

theorem busCommand_quiescent {op : BusOp} {c : Instr} {a : Addr} {d : Word16} {s : State}
    {ins : List Byte} {b : Transport} (hq : s.Quiescent)
    (hp : Transport.play (prog op a d) s.bus = some (ins, b)) :
    busCommand op c a d s =
      .next ((accept op c a d s).afterOps (prog op a d) ins b).finish := by
  obtain ⟨hbusy, hseld⟩ := hq
  refine busCommand_play hbusy ?_ (Nat.lt_succ_of_le (prog_length_le op a d)) hp
  rw [hseld]
  exact prog_enabled op a d

theorem execWrite_stub (a : Addr) (d : Word16) {s : State} {dev : DevStub} (hq : s.Quiescent)
    (hbus : s.bus = .stub dev) :
    ∃ t, exec (.write a d) s = .next t ∧ t.Quiescent ∧ t.bus = .stub (stubWrite a d dev) := by
  obtain ⟨ins, hp⟩ := play_write_stub a d dev
  have hexec : exec (.write a d) s = _ := busCommand_quiescent hq (hbus ▸ hp)
  obtain ⟨-, hseld⟩ := hq
  refine ⟨_, hexec, ⟨rfl, ?_⟩, rfl⟩
  exact (congrArg (seldAfter · _) hseld).trans (prog_seldAfter .write a d)

/-- The response of a READ is made of the last two bytes received. -/
theorem responseOf_rxAfter_read (a : Addr) (d : Word16) (i j k l : Byte) (rx : Vector Byte 20) :
    responseOf .read (rxAfter (prog .read a d) [i, j, k, l] rx) =
      .rdVal (k ++ l : Word16).toInt := by
  have hrx : rxAfter (prog .read a d) [i, j, k, l] rx = (rx.set 0 k).set 1 l := rfl
  rw [hrx, responseOf_read, Vector.getElem_set_self, Vector.getElem_set_ne _ _ (by decide),
    Vector.getElem_set_self]

theorem execRead_stub (a : Addr) {s : State} {dev : DevStub} (hq : s.Quiescent)
    (hbus : s.bus = .stub dev) :
    ∃ u, exec (.read a) s = .next u ∧
      u.rsp = some (.rdVal (stubFrame (a.setWidth 8) fillByte dev).latch.toInt) := by
  obtain ⟨i, j, b, hp⟩ := play_read_stub a s.d dev
  have hexec : exec (.read a) s = _ := busCommand_quiescent hq (hbus ▸ hp)
  refine ⟨_, hexec, congrArg some ?_⟩
  exact (responseOf_rxAfter_read a s.d i j _ _ s.rx).trans
    (congrArg (fun w : Word16 => Response.rdVal w.toInt) (append_hiByte_loByte _))

/-! ### Read after write -/

theorem stubWrite_latch (a : Addr) (d : Word16) (dev : DevStub) : (stubWrite a d dev).latch = 0 :=
  (stubFrame_write _ _ _).2

theorem stubWrite_mem (a : Addr) (d : Word16) (dev : DevStub) :
    (stubWrite a d dev).mem =
      Memory.write (Memory.write dev.mem a.toNat (loByte d)) (a ||| 1).toNat (hiByte d) := by
  obtain ⟨hlow, -⟩ := stubFrame_write a (loByte d) dev
  obtain ⟨hhigh, -⟩ := stubFrame_write (a ||| 1) (hiByte d) (stubFrame (1#1 ++ a) (loByte d) dev)
  rw [stubWrite, hhigh, hlow]

/-- A register at an even address is its two bytes, low and high, at two addresses (R53). -/
theorem stubRegister_stubWrite {a : Addr} (d : Word16) {dev : DevStub}
    (hm : Memory.wf dev.mem = true) (ha : a.getLsbD 0 = false) :
    stubRegister (stubWrite a d dev).mem a = d := by
  have heven : a &&& 0x7E = a := by revert a; decide
  have hne : a.toNat ≠ (a ||| 1).toNat := by revert a; decide
  have hm' : Memory.wf (Memory.write dev.mem a.toNat (loByte d)) = true :=
    Memory.write_wf _ a.isLt hm
  rw [stubWrite_mem, stubRegister, heven, Memory.read_write hm', if_pos rfl,
    Memory.read_write hm', if_neg hne, Memory.read_write hm, if_pos rfl]
  exact append_hiByte_loByte d

/-- Settles O60: the request frame of the READ latches the register the WRITE stored, or, as the burst
trigger, leaves the latch that the WRITE cleared. -/
theorem fixtureReadsBackWrittenValue : Obligations.FixtureReadsBackWrittenValue := by
  intro a d s dev hq hbus hm ha
  obtain ⟨t, hwrite, htq, htbus⟩ := execWrite_stub a d hq hbus
  obtain ⟨u, hread, hrsp⟩ := execRead_stub a htq htbus
  refine ⟨t, u, hwrite, hread, hrsp.trans ?_⟩
  rw [stubFrame_request, stubWrite_latch, stubRegister_stubWrite d hm ha]
  split <;> rfl

end Sys2Proof.Machine
end


section
/-! The host port's decoder and the encoder (spec/30_encoding.md R92 to R97): what each makes of the other's
answers, and which wires it reads. -/

namespace Sys2Proof

/-- What R12, R97 and R88 ask of an instruction, apart. -/
theorem Instr.wf_iff {hasScl : Bool} {i : Instr} :
    i.wf hasScl = true ↔ (i.needsScl = true → hasScl = true) ∧ i.frameAddrOk = true := by
  rw [Instr.wf, Bool.and_eq_true]
  cases i.needsScl <;> simp

theorem Instr.frameAddrOk_of_isCommand {i : Instr} (h : i.isCommand = true) :
    i.frameAddrOk = true := by
  cases i with
  | wrHi => exact absurd h Bool.false_ne_true
  | _ => rfl

theorem decodeCommand_of_decodeOpcode {hasScl : Bool} {p : Port} {i : Instr}
    (h : decodeOpcode p = .ok i) (hscl : i.needsScl = true → hasScl = true) :
    decodeCommand hasScl p = .ok i := by
  rw [decodeCommand, h]
  cases hi : i.needsScl with
  | true => simp [hi, hscl hi]
  | false => simp [hi]

/-- The encoder gives a command the opcode and the operand wires of its row (R92, R93). -/
theorem decodeOpcode_of_encode {i : Instr} {p : Port} (h : encode i = .command p) :
    decodeOpcode p = .ok i := by
  cases i with
  | wrLo | wrHi | rq | fill | trig => cases h
  | _ => cases h; rfl

theorem exists_encode_of_isCommand {i : Instr} (h : i.isCommand = true) :
    ∃ p, encode i = .command p := by
  cases i with
  | wrLo | wrHi | rq | fill | trig => exact absurd h Bool.false_ne_true
  | _ => exact ⟨_, rfl⟩

/-- An instruction has one opcode: the decoder takes it from no other (R92). -/
theorem op_eq_of_decodeOpcode {p q : Port} {i : Instr} (h : decodeOpcode p = .ok i)
    (hq : encode i = .command q) : q.op = p.op := by
  unfold decodeOpcode at h
  split at h <;> cases h
  all_goals
    next hop =>
    cases hq
    exact BitVec.eq_of_toNat_eq hop.symm

/-- Settles O46: the decoder gives commands of the port only, and an instruction has one opcode. -/
theorem decodedCommandIsWellFormed : Obligations.DecodedCommandIsWellFormed := by
  intro hasScl p i h
  obtain ⟨hop, hcmd, hscl⟩ := Machine.decodeCommand_ok h
  obtain ⟨q, hq⟩ := exists_encode_of_isCommand hcmd
  exact ⟨Instr.wf_iff.2 ⟨hscl, Instr.frameAddrOk_of_isCommand hcmd⟩, hcmd, q, hq,
    op_eq_of_decodeOpcode hop hq, decodeCommand_of_decodeOpcode (decodeOpcode_of_encode hq) hscl⟩

/-- The checksum reads the first nine words alone (R190). -/
theorem cksum_congr {v w : Words} (h : ∀ k : Fin 9, v[k.val] = w[k.val]) :
    Machine.cksum v = Machine.cksum w :=
  congrArg Machine.cksumNine (congrArg Vector.ofFn (funext h))

/-- Settles O23: for a given opcode the decoder's answer is written with the operands of its row alone. -/
theorem unreadWiresAreIgnored : Obligations.UnreadWiresAreIgnored := by
  rintro hasScl ⟨op, addr, data, words⟩ ⟨_, addr', data', words'⟩ ⟨⟩
  refine ⟨?_, ?_, ?_, ?_, ?_, cksum_congr⟩
  · rintro ⟨⟩ ⟨⟩
    rfl
  · rintro ⟨⟩ ⟨⟩ ⟨⟩
    rfl
  · rintro (⟨⟨⟩⟩ | ⟨⟨⟩⟩) <;> rfl
  · rintro (⟨⟨⟩⟩ | ⟨⟨⟩⟩) ⟨⟩ <;> rfl
  · intro hop hdata
    obtain rfl : data = data' := hdata
    fin_cases hop <;> rfl

/-! ### Opcodes that name no command -/

theorem decodeOpcode_unassigned {p : Port} (h : p.op ∈ ([0x0, 0x7, 0xD, 0xE, 0xF] : List Opcode)) :
    decodeOpcode p = .error (.unassigned p.op) := by
  obtain ⟨op, addr, data, words⟩ := p
  fin_cases h <;> rfl

/-- The five opcodes of unit `SCL` (R92, R12). -/
theorem decodeOpcode_scale {p : Port} (h : p.op ∈ ([0x8, 0x9, 0xA, 0xB, 0xC] : List Opcode)) :
    ∃ i, decodeOpcode p = .ok i ∧ i.needsScl = true := by
  obtain ⟨op, addr, data, words⟩ := p
  fin_cases h <;> exact ⟨_, rfl, rfl⟩

theorem decodeCommand_of_error {hasScl : Bool} {p : Port} {e : DecodeReject}
    (h : decodeOpcode p = .error e) : decodeCommand hasScl p = .error e := by
  rw [decodeCommand, h]

theorem decodeCommand_sclAbsent {p : Port} {i : Instr} (h : decodeOpcode p = .ok i)
    (hi : i.needsScl = true) : decodeCommand false p = .error (.sclAbsent p.op) := by
  rw [decodeCommand, h]
  simp [hi]

/-- What the host port's decoder rejects leaves the block idle (R97). -/
theorem Machine.step_of_rejected {s : Machine.State} {p : Port} {e : DecodeReject}
    (hb : s.busy = false) (hp : s.hostNow = Machine.HostIn.present p)
    (h : decodeCommand s.cfg.hasScl p = .error e) : Machine.step s = .next s.tick := by
  have hnone : s.presented = none := by
    rw [Machine.State.presented, hp]
    simp only [Machine.HostIn.present, h, Except.toOption]
  rw [Machine.step, hp, hb, hnone]
  rfl

/-- Settles O22: the decoder rejects such an opcode, and the step then finds nothing presented. -/
theorem unassignedOpcodeDoesNothing : Obligations.UnassignedOpcodeDoesNothing := by
  intro s p hb hp
  constructor
  · intro hop
    have hrej := decodeCommand_of_error (hasScl := s.cfg.hasScl) (decodeOpcode_unassigned hop)
    exact ⟨hrej, Machine.step_of_rejected hb hp hrej⟩
  · intro hop hscl
    obtain ⟨i, hi, hneeds⟩ := decodeOpcode_scale hop
    have hrej : decodeCommand s.cfg.hasScl p = .error (.sclAbsent p.op) := by
      rw [hscl, decodeCommand_sclAbsent hi hneeds]
    exact ⟨hrej, Machine.step_of_rejected hb hp hrej⟩

end Sys2Proof
end

section
/-! The words of the wire frames by their fields, and the word two received bytes make (spec/30_encoding.md R82 to
R89). -/

namespace Sys2Proof.Machine

/-! ### Fields of a frame -/

theorem frameWr_wrWord (a : Addr) (b : Byte) : frameWr (wrWord a b) = true := by
  have hbyte : (1#1 ++ a : Byte).getLsbD 7 = true := by revert a; decide
  exact (BitVec.getLsbD_append (x := (1#1 ++ a : Byte)) (y := b) (i := 15)).trans hbyte

theorem frameAddr_wrWord (a : Addr) (b : Byte) : frameAddr (wrWord a b) = a := by
  have hbyte : hiByte (wrWord a b) = 1#1 ++ a := hiByte_wrWord a b
  have haddr : (1#1 ++ a : Byte).setWidth 7 = a := BitVec.setWidth_append_eq_right
  have hfield : frameAddr (wrWord a b) = (hiByte (wrWord a b)).setWidth 7 := by
    ext k hk
    simp [frameAddr, hiByte, show k < 8 by omega]
  rw [hfield, hbyte, haddr]

theorem hiByte_rqWord (a : Addr) : hiByte (rqWord a) = a.setWidth 8 := hiByte_append _ 0

theorem loByte_rqWord (a : Addr) : loByte (rqWord a) = 0x00 := loByte_append (a.setWidth 8) 0

theorem frameWr_rqWord (a : Addr) : frameWr (rqWord a) = false := by revert a; decide

theorem frameAddr_rqWord (a : Addr) : frameAddr (rqWord a) = a := by revert a; decide

/-- Settles O51: the fields of a request word, and R100's two overlaps. -/
theorem requestWordLayout : Obligations.RequestWordLayout :=
  ⟨fun a => ⟨hiByte_rqWord a, loByte_rqWord a, frameWr_rqWord a, frameAddr_rqWord a⟩,
    rfl, rfl, rfl, rfl, rfl⟩

/-- The mask of R88 changes nothing: an address has seven bits. -/
theorem addr_mask (a : Addr) : a.setWidth 16 &&& 0x007F = (a.setWidth 16 : Word16) := by
  revert a
  decide

/-- The shift of R88 loses no bit. -/
theorem addrWord_toNat (a : Addr) : (addrWord a).toNat = (0x80 + a.toNat) * 256 := by
  revert a
  decide

theorem addr_or_one_iff (a : Addr) : a ||| 1 = a + 1 ↔ a.getLsbD 0 = false := by
  revert a
  decide

/-- Settles O49: the two write words are write frames (R82), the second at `a | 1`. -/
theorem writeWordLayout : Obligations.WriteWordLayout :=
  ⟨fun a d => ⟨rfl, rfl, rfl, addrWord_eq a, lowWord_eq_wrWord a d, highWord_eq_wrWord a d,
    addr_mask a, addrWord_toNat a, addr_or_one_iff a⟩, rfl, rfl, rfl⟩

/-! ### The value of two received bytes -/

theorem asS16_assembleWord (m l : Byte) :
    asS16 (assembleWord m l) =
      if m.toNat < 128 then (m.toNat * 256 + l.toNat : Int)
      else (m.toNat * 256 + l.toNat : Int) - 65536 := by
  have hl := l.isLt
  rw [asS16, BitVec.toInt_eq_toNat_cond, assembleWord_eq, append_toNat]
  split <;> split <;> omega

/-- Settles O53: the first byte's top bit is the sign (R89). -/
theorem readAssembly : Obligations.ReadAssembly := ⟨asS16_assembleWord, rfl⟩

end Sys2Proof.Machine
end

section
/-! The decoder against the encoder (spec/30_encoding.md R82, R83, R92, R93, R101). -/

namespace Sys2Proof

/-- The encoder gives a frame the place and the fields its decoder looks at (R83, R101). -/
theorem decodeFrame_of_encode {i : Instr} {pos : FramePos} {w : Word16}
    (h : encode i = .frame pos w) (hodd : i.frameAddrOk = true) : decodeFrame pos w = .ok i := by
  cases i with
  | wrLo addr data =>
    cases h
    rw [decodeFrame, if_pos (Machine.frameWr_wrWord addr data), Machine.frameAddr_wrWord,
      Machine.loByte_wrWord]
  | wrHi addr data =>
    cases h
    have hodd : addr.getLsbD 0 = true := hodd
    rw [decodeFrame, if_pos (Machine.frameWr_wrWord addr data), Machine.frameAddr_wrWord,
      Machine.loByte_wrWord, if_pos hodd]
  | rq addr =>
    cases h
    rw [decodeFrame, Machine.frameWr_rqWord, Machine.loByte_rqWord, Machine.frameAddr_rqWord]
    rfl
  | fill => cases h; rfl
  | trig => cases h; rfl
  | _ => cases h

/-- Settles O45: a command by its opcode, a frame by its place and its fields. -/
theorem decodeOfEncode : Obligations.DecodeOfEncode := by
  intro hasScl i hwf
  obtain ⟨hscl, hodd⟩ := Instr.wf_iff.1 hwf
  cases he : encode i with
  | command p => exact decodeCommand_of_decodeOpcode (decodeOpcode_of_encode he) hscl
  | frame pos w => exact decodeFrame_of_encode he hodd

/-- Settles O48: each word is one closed computation of the two decoders. -/
theorem tableWordsDecode : Obligations.TableWordsDecode :=
  ⟨rfl, rfl, rfl, rfl, rfl, rfl, rfl, rfl, rfl, rfl, rfl, rfl, rfl⟩

end Sys2Proof
end

section
/-! A wire frame as two micro-ops (spec/30_encoding.md R84, R85): which ones, what they do on a selected bus, and
where they stand in the micro-program of the command in flight (spec/40_sequencer.md R112). -/

namespace Sys2Proof.Machine

/-! ### Fill bytes -/

/-- The micro-op that exchanges a fill byte, kept at `k` if there is a place for it. -/
def fillTo (k : Option (Fin 20)) : MicroOp := k.elim (.tx fillByte) (.xr fillByte)

/-- Whether a micro-op keeps the byte it receives (R111). -/
def MicroOp.keeps : MicroOp → Bool
  | .xr _ _ => true
  | _ => false

theorem State.receiveIndex_of_ge {s : State} {n : Nat} (h : 25 ≤ n) : s.receiveIndex n = none := by
  have h6 : n ≠ 6 := by omega
  have h7 : n ≠ 7 := by omega
  have h23 : ¬n < 23 := by omega
  unfold State.receiveIndex
  cases s.op <;> simp [h6, h7, h23]

/-- The micro-ops in flight that keep a byte stand at the phases of R84, and each sends a fill byte (R112). -/
theorem program_filter_keeps {s : State} (hb : s.busy = true) (n : Nat) :
    s.program[n]?.filter MicroOp.keeps = (s.receiveIndex n).map (.xr fillByte) := by
  rcases Nat.lt_or_ge n 25 with hn | hn
  · rw [State.program, State.receiveIndex, if_pos hb]
    cases s.op <;> interval_cases n <;> rfl
  · have hnone : s.program[n]? = none :=
      List.getElem?_eq_none ((prog_length_le s.op s.a s.d).trans hn)
    rw [hnone, State.receiveIndex_of_ge hn]
    rfl

theorem program_of_receiveIndex {s : State} {n : Nat} {k : Fin 20} (hb : s.busy = true)
    (h : s.receiveIndex n = some k) : s.program[n]? = some (.xr fillByte k) := by
  have hkeep := program_filter_keeps hb n
  rw [h, Option.map_some, Option.filter_eq_some_iff] at hkeep
  exact hkeep.1

theorem receiveIndex_of_program {s : State} {n : Nat} {o : Byte} {k : Fin 20} (hb : s.busy = true)
    (h : s.program[n]? = some (.xr o k)) : s.receiveIndex n = some k := by
  have hkeep := program_filter_keeps hb n
  rw [h] at hkeep
  obtain ⟨j, hj, hjk⟩ := Option.map_eq_some_iff.1 hkeep.symm
  cases hjk
  exact hj

/-- A fill byte is kept where the command in flight keeps what it receives at that phase (R84). -/
theorem fillOp_eq (s : State) (n : Nat) : fillOp s n = fillTo (s.receiveIndex (s.ph + n)) := by
  unfold fillOp
  split
  · next hb hm => rw [receiveIndex_of_program hb hm]; rfl
  · next hno =>
    cases hr : s.receiveIndex (s.ph + n) with
    | none => rfl
    | some k =>
      cases hb : s.busy with
      | true => exact absurd (program_of_receiveIndex hb hr) (hno _ _ hb)
      | false => simp [State.receiveIndex, hb] at hr

/-! ### The micro-ops of a frame -/

/-- The two exchanges `exec` makes of a frame in the state `s`: those of `frameProgram`, but that the bytes of a
fill frame may be kept (R84). -/
def frameOps (f : Instr) (s : State) : List MicroOp :=
  match f with
  | .fill => [fillOp s 0, fillOp s 1]
  | _ => frameProgram f

theorem frameOps_fill (s : State) :
    frameOps .fill s = [fillTo (s.receiveIndex s.ph), fillTo (s.receiveIndex (s.ph + 1))] := by
  rw [frameOps, fillOp_eq, fillOp_eq, Nat.add_zero]

theorem frameOps_of_ne_fill {f : Instr} (s : State) (h : f ≠ .fill) :
    frameOps f s = frameProgram f := by
  cases f with
  | fill => exact absurd rfl h
  | _ => rfl

theorem exec_frame {f : Instr} (hf : f.isCommand = false) (s : State) :
    exec f s = runMicroOps (frameOps f s) s := by
  cases f with
  | wrLo | wrHi | rq | fill | trig => rfl
  | _ => exact absurd hf.symm Bool.false_ne_true

/-- A frame is two exchanges (R85). -/
theorem frameProgram_of_not_isCommand {f : Instr} (hf : f.isCommand = false) :
    ∃ o p, frameProgram f = [.tx o, .tx p] := by
  cases f with
  | wrLo | wrHi | rq | fill | trig => exact ⟨_, _, rfl⟩
  | _ => exact absurd hf.symm Bool.false_ne_true

/-- What is sent and answered does not depend on whether the byte is kept. -/
theorem play_frameOps (f : Instr) (s : State) (b : Transport) :
    Transport.play (frameOps f s) b = Transport.play (frameProgram f) b := by
  by_cases h : f = .fill
  · rw [h, frameOps_fill]
    cases s.receiveIndex s.ph <;> cases s.receiveIndex (s.ph + 1) <;> rfl
  · rw [frameOps_of_ne_fill s h]

theorem frameOps_length {f : Instr} (hf : f.isCommand = false) (s : State) :
    (frameOps f s).length = 2 := by
  cases f with
  | wrLo | wrHi | rq | fill | trig => rfl
  | _ => exact absurd hf.symm Bool.false_ne_true

theorem frameOps_enabled {f : Instr} (hf : f.isCommand = false) (s : State) :
    opsEnabled true (frameOps f s) = true := by
  by_cases h : f = .fill
  · rw [h, frameOps_fill]
    cases s.receiveIndex s.ph <;> cases s.receiveIndex (s.ph + 1) <;> rfl
  · obtain ⟨o, p, hop⟩ := frameProgram_of_not_isCommand hf
    rw [frameOps_of_ne_fill s h, hop]
    rfl

/-- A frame on a selected bus, both its exchanges answered (R85). -/
theorem exec_frame_play {f : Instr} {s : State} {ins : List Byte} {b : Transport}
    (hf : f.isCommand = false) (hs : s.seld = true)
    (hp : s.bus.play (frameProgram f) = some (ins, b)) :
    exec f s = .next (s.afterOps (frameOps f s) ins b) := by
  rw [exec_frame hf]
  refine runMicroOps_play ?_ ((play_frameOps f s s.bus).trans hp)
  rw [hs]
  exact frameOps_enabled hf s

/-! ### The frames by their bytes -/

/-- The address byte of a write frame: bit 7 set over the seven address bits (R88). -/
theorem writeAddressByte_eq (a : Addr) : (1#1 ++ a : Byte) = 0x80 ||| a.setWidth 8 := by
  revert a
  decide

/-- A write frame's word as its two bytes (R85, R88). -/
theorem frameProgram_write (a : Addr) (b : Byte) :
    [MicroOp.tx (hiByte (wrWord a b)), .tx (loByte (wrWord a b))] =
      [.tx (0x80 ||| a.setWidth 8), .tx b] := by
  rw [hiByte_wrWord, writeAddressByte_eq, loByte_wrWord]

theorem frameProgram_rq (a : Addr) :
    frameProgram (.rq a) = [.tx (a.setWidth 8), .tx 0x00] := by
  rw [frameProgram, hiByte_rqWord, loByte_rqWord]

/-- Two exchanges whose bytes are discarded (R84). -/
theorem State.afterOps_two_tx (s : State) (o p i j : Byte) (b : Transport) :
    s.afterOps [.tx o, .tx p] [i, j] b =
      { s with ph := s.ph + 2, bus := b, trace := s.trace ++ [.xfer o i, .xfer p j] } := rfl

/-- A frame but a fill frame: its two bytes go out, and nothing is kept (R84, R85). -/
theorem exec_frame_discards {f : Instr} {s : State} {o p i j : Byte} {b : Transport}
    (hf : f.isCommand = false) (hne : f ≠ .fill) (hs : s.seld = true)
    (hop : frameProgram f = [.tx o, .tx p])
    (hp : s.bus.play [.tx o, .tx p] = some ([i, j], b)) :
    exec f s = .next { s with
      ph := s.ph + 2, bus := b, trace := s.trace ++ [.xfer o i, .xfer p j] } := by
  rw [exec_frame_play hf hs (hop ▸ hp), frameOps_of_ne_fill s hne, hop, State.afterOps_two_tx]

/-- Settles O40: both write frames have one layout (R82). -/
theorem writeFramesSendAddressThenData : Obligations.WriteFramesSendAddressThenData := by
  intro addr data s i j b hs hp f hf
  have hwrite : ∀ g : Instr, g.isCommand = false → g ≠ .fill →
      frameProgram g = [.tx (hiByte (wrWord addr data)), .tx (loByte (wrWord addr data))] →
      exec g s = _ := fun g hg hne hop =>
    exec_frame_discards hg hne hs (hop.trans (frameProgram_write addr data)) hp
  simp only [List.mem_cons, List.not_mem_nil, or_false] at hf
  obtain rfl | rfl := hf
  · exact hwrite (.wrLo addr data) rfl nofun rfl
  · exact hwrite (.wrHi addr data) rfl nofun rfl

/-- Settles O41, by the bytes of the two words. -/
theorem requestAndTriggerFramesSendTwoBytes : Obligations.RequestAndTriggerFramesSendTwoBytes := by
  intro s i j b hs
  exact ⟨fun addr hp => exec_frame_discards rfl nofun hs (frameProgram_rq addr) hp,
    fun hp => exec_frame_discards (f := .trig) rfl nofun hs rfl hp⟩

/-- Two fill bytes, each kept in its place if it has one (R84). -/
theorem State.afterOps_two_fillTo (s : State) (k l : Option (Fin 20)) (i j : Byte) (b : Transport) :
    s.afterOps [fillTo k, fillTo l] [i, j] b =
      { s with
        ph := s.ph + 2, bus := b, rx := keepByte l j (keepByte k i s.rx),
        trace := s.trace ++ [.xfer fillByte i, .xfer fillByte j] } := by
  cases k <;> cases l <;> rfl

/-- Settles O42: where the sequencer keeps a fill byte is where R84 says. -/
theorem fillFrameKeepsResponseBytes : Obligations.FillFrameKeepsResponseBytes := by
  intro s i j b hs hp
  rw [exec_frame_play (f := .fill) rfl hs hp, frameOps_fill, State.afterOps_two_fillTo]
  rfl

/-! ### The frame that is due -/

/-- A READ keeps the two bytes of its second frame (R84). -/
theorem State.receiveIndex_read {s : State} (hb : s.busy = true) (hop : s.op = .read)
    (hph : s.ph = 6) :
    s.receiveIndex s.ph = some 0 ∧ s.receiveIndex (s.ph + 1) = some 1 := by
  simp [State.receiveIndex, hb, hop, hph]

/-- A burst keeps the twenty bytes after the trigger (R84). -/
theorem State.receiveIndex_burst {s : State} {n : Nat} (hb : s.busy = true)
    (hop : s.op = .burstw ∨ s.op = .burstb) (h3 : 3 ≤ n) (h23 : n < 23) :
    s.receiveIndex n = some (Fin.ofNat 20 (n - 3)) := by
  obtain hop | hop := hop <;> simp [State.receiveIndex, hb, hop, h3, h23]

/-- Where each frame is due in the command in flight (R112). -/
inductive State.DueAt (s : State) : Instr → Prop
  | rq (hop : s.op = .read) (hph : s.ph = 1) : s.DueAt (.rq s.a)
  | wrLo (hop : s.op = .write) (hph : s.ph = 1) : s.DueAt (.wrLo s.a (loByte s.d))
  | wrHi (hop : s.op = .write) (hph : s.ph = 6) : s.DueAt (.wrHi (s.a ||| 1) (hiByte s.d))
  | trig (hop : s.op = .burstw ∨ s.op = .burstb) (hph : s.ph = 1) : s.DueAt .trig
  | fill {k l : Fin 20} (hk : s.receiveIndex s.ph = some k)
      (hl : s.receiveIndex (s.ph + 1) = some l) : s.DueAt .fill

theorem State.frameDue_burst {s : State} (hb : s.busy = true)
    (hop : s.op = .burstw ∨ s.op = .burstb) :
    s.frameDue = if s.ph = 1 then some .trig
      else if 3 ≤ s.ph ∧ s.ph < 23 ∧ s.ph % 2 = 1 then some .fill else none := by
  obtain hop | hop := hop <;> simp only [State.frameDue, hb, hop, if_true]

theorem State.dueAt_of_burst {s : State} {f : Instr} (hb : s.busy = true)
    (hop : s.op = .burstw ∨ s.op = .burstb) (h : s.frameDue = some f) : s.DueAt f := by
  rw [State.frameDue_burst hb hop] at h
  split at h
  · next hph => cases h; exact .trig hop hph
  · split at h
    · next hph =>
      cases h
      obtain ⟨h3, h23, hodd⟩ := hph
      exact .fill (State.receiveIndex_burst hb hop h3 h23)
        (State.receiveIndex_burst hb hop (by omega) (by omega))
    · cases h

theorem State.dueAt_of_frameDue {s : State} {f : Instr} (h : s.frameDue = some f) :
    s.busy = true ∧ s.DueAt f := by
  have hdue := h
  unfold State.frameDue at h
  split at h
  · next hb =>
    refine ⟨hb, ?_⟩
    split at h
    · next hop =>
      split at h
      · next hph => cases h; exact .rq hop hph
      · split at h
        · next hph =>
          cases h
          obtain ⟨hk, hl⟩ := State.receiveIndex_read hb hop hph
          exact .fill hk hl
        · cases h
    · next hop =>
      split at h
      · next hph => cases h; exact .wrLo hop hph
      · split at h
        · next hph => cases h; exact .wrHi hop hph
        · cases h
    · next hop => exact State.dueAt_of_burst hb (.inl hop) hdue
    · next hop => exact State.dueAt_of_burst hb (.inr hop) hdue
  · cases h

theorem drop_of_getElem?_of_getElem? {α : Type} {l : List α} {n : Nat} {x y : α}
    (hx : l[n]? = some x) (hy : l[n + 1]? = some y) : l.drop n = [x, y] ++ l.drop (n + 2) := by
  obtain ⟨hn, rfl⟩ := List.getElem?_eq_some_iff.1 hx
  obtain ⟨hn', rfl⟩ := List.getElem?_eq_some_iff.1 hy
  rw [List.drop_eq_getElem_cons hn, List.drop_eq_getElem_cons hn']
  rfl

/-- The frame that is due is what the micro-program in flight sends next (R112). -/
theorem program_of_dueAt {s : State} {f : Instr} (hb : s.busy = true) (h : s.DueAt f) :
    s.program.drop s.ph = frameOps f s ++ s.program.drop (s.ph + 2) := by
  cases h with
  | rq hop hph =>
    rw [State.program, hop, hph, frameOps_of_ne_fill (f := .rq s.a) s nofun, frameProgram_rq]
    rfl
  | wrLo hop hph => rw [State.program, hop, hph, prog, lowWord_eq_wrWord]; rfl
  | wrHi hop hph => rw [State.program, hop, hph, prog, highWord_eq_wrWord]; rfl
  | trig hop hph =>
    rw [State.program, hph]
    obtain hop | hop := hop <;> rw [hop] <;> rfl
  | fill hk hl =>
    rw [frameOps_fill, hk, hl]
    exact drop_of_getElem?_of_getElem? (program_of_receiveIndex hb hk)
      (program_of_receiveIndex hb hl)

theorem State.DueAt.isCommand {s : State} {f : Instr} (h : s.DueAt f) : f.isCommand = false := by
  cases h <;> rfl

/-- Steps of the machine through a part of a micro-program, all enabled and answered. -/
theorem run_play_part {ms : List MicroOp} : ∀ {s : State} {rest : List MicroOp} {ins : List Byte}
    {b : Transport}, s.busy = true → s.program.drop s.ph = ms ++ rest → s.NoReset ms.length →
    opsEnabled s.seld ms = true → Transport.play ms s.bus = some (ins, b) →
    Host.Core.run core ms.length s = .next ((s.ticks ms.length).afterOps ms ins b) := by
  induction ms with
  | nil =>
    intro s rest ins b _ _ _ _ hp
    simp only [Transport.play, Option.some.injEq, Prod.mk.injEq] at hp
    obtain ⟨-, rfl⟩ := hp
    rw [List.length_nil, State.ticks_zero, State.afterOps_nil, run_zero]
  | cons m ms ih =>
    intro s rest ins b hb hd hr he hp
    obtain ⟨hm, hd'⟩ := drop_cons_getElem? hd
    obtain ⟨-, t, is, ht, he', hp', ha, hph, hpr, hbt, hht, -⟩ := microOp_play (s := s.tick) he hp
    have hstep : step s = .next t := by
      rw [step_busy (State.NoReset_now hr) hb, sequencerStep, State.tick_program, State.tick_ph, hm]
      exact ht
    have hd'' : t.program.drop t.ph = ms ++ rest := by rw [hpr, hph]; exact hd'
    have hr' : t.NoReset ms.length := State.NoReset_of_host hht (State.NoReset_tick hr)
    rw [List.length_cons, run_succ hstep, ih (hbt.trans hb) hd'' hr' he' hp', State.afterOps_ticks,
      ha, ← State.afterOps_ticks, State.ticks_succ]

/-- Settles O28: the two micro-ops the sequencer does next are those `exec` does of the frame. -/
theorem twoStepsOfAFrameAreItsExec : Obligations.TwoStepsOfAFrameAreItsExec := by
  intro s f hdue hs hr hplay
  obtain ⟨hb, hat⟩ := State.dueAt_of_frameDue hdue
  obtain ⟨⟨ins, b⟩, hp⟩ := Option.isSome_iff_exists.1 hplay
  have hlen : (frameOps f s).length = 2 := frameOps_length hat.isCommand s
  have hrun := run_play_part (ins := ins) (b := b) hb (program_of_dueAt hb hat) (hlen.symm ▸ hr)
    (hs ▸ frameOps_enabled hat.isCommand s) ((play_frameOps f s s.bus).trans hp)
  rw [hlen] at hrun
  rw [hrun, exec_frame_play (s := s.ticks 2) hat.isCommand hs hp]
  rfl

end Sys2Proof.Machine
end

section
/-! `State.withFetchWord`: where an instruction of the opcode table's numbering is put is where the next step
takes it from (spec/30_encoding.md R92, R101). -/

namespace Sys2Proof

/-- The decoder of one frame gives a frame, and a WR.HI only with an odd `ADDR` (R83, R88). -/
theorem decodeFrame_ok {pos : FramePos} {w : Word16} {f : Instr} (h : decodeFrame pos w = .ok f) :
    f.isCommand = false ∧ f.frameAddrOk = true := by
  unfold decodeFrame at h
  split at h
  · split_ifs at h <;> cases h <;> exact ⟨rfl, rfl⟩
  · split_ifs at h with _ hodd
    · cases h; exact ⟨rfl, hodd⟩
    · cases h; exact ⟨rfl, rfl⟩
  · split_ifs at h; cases h; exact ⟨rfl, rfl⟩
  · split_ifs at h; cases h; exact ⟨rfl, rfl⟩

theorem ok_of_toOption {x : Except DecodeReject Instr} {i : Instr} (h : x.toOption = some i) :
    x = .ok i := by
  cases x with
  | error e => cases h
  | ok j => cases h; rfl

/-- A row of one byte is a command by its opcode, a longer row a frame (R92, R101). -/
theorem decodeTableWord_eq_some {nbits w : Nat} {i : Instr} (h : decodeTableWord nbits w = some i) :
    nbits ≤ 8 ∧ decodeCommand true (Port.ofOpcode (BitVec.ofNat 4 w)) = .ok i ∨
      ¬nbits ≤ 8 ∧ decodeWire (BitVec.ofNat 16 w) = .ok i := by
  unfold decodeTableWord at h
  split at h
  · next hn => exact .inl ⟨hn, ok_of_toOption h⟩
  · next hn => exact .inr ⟨hn, ok_of_toOption h⟩

namespace Machine

theorem State.presented_presenting {s : State} {p : Port} {i : Instr}
    (h : decodeCommand s.cfg.hasScl p = .ok i) : (s.presenting p).presented = some i :=
  congrArg Except.toOption h

theorem odd_or_one {a : Addr} (h : a.getLsbD 0 = true) : a ||| 1 = a := by
  revert a
  decide

/-- What `State.atFrame` leaves: a selected bus, no reset, and two answers before the transport's own (log 12). -/
theorem State.atFrame_selected {f : Instr} (hf : f.isCommand = false) (s : State) :
    (s.atFrame f).seld = true ∧ (s.atFrame f).hostNow.rst = false ∧
      (s.atFrame f).bus = s.bus.withTwoAnswers := by
  cases f with
  | wrLo | wrHi | rq | fill | trig => exact ⟨rfl, rfl, rfl⟩
  | _ => exact absurd hf.symm Bool.false_ne_true

theorem State.atFrame_frameDue {f : Instr} (hf : f.isCommand = false) (hodd : f.frameAddrOk = true)
    (s : State) : (s.atFrame f).frameDue = some f := by
  cases f with
  | wrLo addr data =>
    have hdue : (s.atFrame (.wrLo addr data)).frameDue =
      some (.wrLo addr (loByte (hiByte s.d ++ data))) := rfl
    rw [hdue, loByte_append]
  | wrHi addr data =>
    have hdue : (s.atFrame (.wrHi addr data)).frameDue =
      some (.wrHi (addr ||| 1) (hiByte (data ++ loByte s.d))) := rfl
    rw [hdue, odd_or_one hodd, hiByte_append]
  | rq | fill | trig => rfl
  | _ => exact absurd hf.symm Bool.false_ne_true

theorem play_frame_withTwoAnswers {f : Instr} (hf : f.isCommand = false) (b : Transport) :
    (b.withTwoAnswers.play (frameProgram f)).isSome = true := by
  obtain ⟨o, p, hop⟩ := frameProgram_of_not_isCommand hf
  rw [hop]
  cases b <;> rfl

/-- Settles O25: a one-byte row is a command on the port, a longer one a frame at `PH`. -/
theorem fetchWordIsNextInstruction : Obligations.FetchWordIsNextInstruction := by
  intro s nbits w i h
  unfold State.withFetchWord
  obtain ⟨hn, hdec⟩ | ⟨hn, hdec⟩ := decodeTableWord_eq_some h
  · obtain ⟨-, hcmd, -⟩ := decodeCommand_ok hdec
    rw [if_pos hn]
    refine ⟨fun _ hscl => ⟨rfl, rfl, State.presented_presenting (hscl.symm ▸ hdec)⟩, fun hf => ?_⟩
    exact absurd (hf.symm.trans hcmd) Bool.false_ne_true
  · obtain ⟨hf, hodd⟩ := decodeFrame_ok hdec
    rw [if_neg hn, h]
    refine ⟨fun hcmd => absurd (hf.symm.trans hcmd) Bool.false_ne_true, fun _ => ?_⟩
    obtain ⟨hs, hr, hbus⟩ := State.atFrame_selected hf s
    exact ⟨hs, hr, State.atFrame_frameDue hf hodd s, hbus ▸ play_frame_withTwoAnswers hf s.bus⟩

end Machine

end Sys2Proof
end

section
/-! The big-step form's events as transactions and frames (spec/30_encoding.md R80, R81, R101, spec/40_sequencer.md
R118, R125). -/

namespace Sys2Proof

open Machine

/-- The events of a bus command that the big-step form gives (R118). -/
inductive RunEvents (us : Nat) : Instr → List Event → Prop
  | read (a : Addr) (i0 i1 i2 i3 : Byte) :
      RunEvents us (.read a) (frameEvents us (rqWord a) i0 i1 ++ frameEvents us fillWord i2 i3)
  | write (a : Addr) (d : Word16) (i0 i1 i2 i3 : Byte) :
      RunEvents us (.write a d)
        (frameEvents us (lowWord a d) i0 i1 ++ frameEvents us (highWord a d) i2 i3)
  | burst {c : Instr} (hc : c = .burstw ∨ c = .burstb) (t0 t1 : Byte) {bs : List Byte}
      (hlen : bs.length = 20) : RunEvents us c (burstEvents us t0 t1 bs)

theorem length_of_burstBuffer {bs : List Byte} {v : Vector Byte 20}
    (h : burstBuffer bs = some v) : bs.length = 20 := by
  unfold burstBuffer at h
  split at h
  · next hlen => exact hlen
  · cases h

theorem runEvents_of_run {us : Nat} {c : Instr} {ins : List Byte} {ev : List Event} {r : Response}
    (h : run us c ins = some (ev, r)) : RunEvents us c ev := by
  cases c with
  | read a =>
    simp only [run] at h
    split at h
    · cases h; exact .read a _ _ _ _
    · cases h
  | write a d =>
    simp only [run] at h
    split at h
    · cases h; exact .write a d _ _ _ _
    · cases h
  | burstw =>
    simp only [run] at h
    split at h
    · obtain ⟨v, hv, heq⟩ := Option.map_eq_some_iff.1 h
      cases heq
      exact .burst (.inl rfl) _ _ (length_of_burstBuffer hv)
    · cases h
  | burstb =>
    simp only [run] at h
    split at h
    · obtain ⟨v, hv, heq⟩ := Option.map_eq_some_iff.1 h
      cases heq
      exact .burst (.inr rfl) _ _ (length_of_burstBuffer hv)
    · cases h
  | _ => cases h

/-! ### Transactions -/

/-- A 2-byte transaction is its frame's two bytes (R80, R85). -/
theorem transactions_two_frames (us : Nat) (v w : Word16) (i j k l : Byte) :
    transactions none (frameEvents us v i j ++ frameEvents us w k l) =
      .ok [[hiByte v, loByte v], [hiByte w, loByte w]] := rfl

theorem transactions_xfers (o : Byte) (bs : List Byte) (es : List Event) : ∀ sent : List Byte,
    transactions (some sent) (bs.map (.xfer o) ++ es) =
      transactions (some (List.replicate bs.length o ++ sent)) es := by
  induction bs with
  | nil => intro sent; rfl
  | cons b bs ih =>
    intro sent
    have hstep : transactions (some sent) ((b :: bs).map (.xfer o) ++ es) =
        transactions (some (o :: sent)) (bs.map (.xfer o) ++ es) := rfl
    rw [hstep, ih, List.length_cons, List.replicate_succ', List.append_assoc]
    rfl

/-- A burst is one transaction: the trigger's two bytes, then the fill bytes (R80). -/
theorem transactions_burstEvents (us : Nat) (t0 t1 : Byte) (bs : List Byte) :
    transactions none (burstEvents us t0 t1 bs) =
      .ok [0x68 :: 0x00 :: List.replicate bs.length 0x00] := by
  have hstep : transactions none (burstEvents us t0 t1 bs) =
      transactions (some [0x00, 0x68]) (bs.map (.xfer 0x00) ++ [.desel, .delay us]) := rfl
  have hend (sent : List Byte) :
      transactions (some sent) [.desel, .delay us] = .ok [sent.reverse] := rfl
  rw [hstep, transactions_xfers, hend, List.reverse_append, List.reverse_replicate]
  rfl

/-! ### Frames of a trace -/

/-- The bytes of a word are put together to the word (R85). -/
theorem assembleWord_hiByte_loByte (w : Word16) : assembleWord (hiByte w) (loByte w) = w :=
  (assembleWord_eq _ _).trans (append_hiByte_loByte w)

/-- A 2-byte transaction is one frame, at its turn (R81, R101). -/
theorem decodeTransactions_frame {second : Bool} {w : Word16} {f : Instr}
    (h : decodeFrame (if second then .closing else .opening) w = .ok f) (rest : List (List Byte)) :
    decodeTransactions second ([hiByte w, loByte w] :: rest) =
      (decodeTransactions (!second) rest).map (f :: ·) := by
  have hdec : decodeTransactions second ([hiByte w, loByte w] :: rest) =
      (decodeFrame (if second then .closing else .opening)
        (assembleWord (hiByte w) (loByte w))).bind fun i =>
          (decodeTransactions (!second) rest).bind fun more => .ok (i :: more) := rfl
  rw [hdec, assembleWord_hiByte_loByte, h]
  cases decodeTransactions (!second) rest <;> rfl

/-- Two of them are a command's first and second frame. -/
theorem decodeTransactions_two_frames {v w : Word16} {f g : Instr}
    (hf : decodeFrame .opening v = .ok f) (hg : decodeFrame .closing w = .ok g) :
    decodeTransactions false [[hiByte v, loByte v], [hiByte w, loByte w]] = .ok [f, g] := by
  rw [decodeTransactions_frame (second := false) hf, Bool.not_false,
    decodeTransactions_frame (second := true) hg]
  rfl

theorem decodeBusTrace_of_transactions {es : List Event} {ts : List (List Byte)}
    (h : transactions none es = .ok ts) : decodeBusTrace es = decodeTransactions false ts := by
  rw [decodeBusTrace, h]
  rfl

/-- The second write frame's `ADDR` is odd (R88). -/
theorem or_one_odd (a : Addr) : (a ||| 1).getLsbD 0 = true := by
  revert a
  decide

/-- Settles O47: the transactions of the three forms of events, each decoded by its place. -/
theorem busTraceDecodesToFramesSent : Obligations.BusTraceDecodesToFramesSent := by
  intro us c ins ev r h
  cases runEvents_of_run h with
  | read a i0 i1 i2 i3 =>
    rw [decodeBusTrace_of_transactions (transactions_two_frames ..)]
    exact decodeTransactions_two_frames (decodeFrame_of_encode (i := .rq a) rfl rfl) rfl
  | write a d i0 i1 i2 i3 =>
    rw [decodeBusTrace_of_transactions (transactions_two_frames ..),
      lowWord_eq_wrWord, highWord_eq_wrWord]
    exact decodeTransactions_two_frames (decodeFrame_of_encode (i := .wrLo _ _) rfl rfl)
      (decodeFrame_of_encode (i := .wrHi _ _) rfl (or_one_odd a))
  | burst hc t0 t1 hlen =>
    rw [decodeBusTrace_of_transactions (transactions_burstEvents ..), hlen]
    obtain rfl | rfl := hc <;> rfl

/-! ### Counts -/

theorem countEvents_append (p : Event → Bool) (es fs : List Event) :
    countEvents p (es ++ fs) = countEvents p es + countEvents p fs := by
  rw [countEvents, List.filter_append, List.length_append, countEvents, countEvents]

/-- The transfers of a burst are all of one kind, and all counted or none. -/
theorem countEvents_xfers (p : Event → Bool) (b : Bool) (h : ∀ o i, p (.xfer o i) = b) (o : Byte)
    (bs : List Byte) : countEvents p (bs.map (.xfer o)) = if b then bs.length else 0 := by
  have hcomp : p ∘ Event.xfer o = fun _ => b := funext (h o)
  rw [countEvents, List.filter_map, List.length_map, hcomp]
  cases b <;> simp

theorem countEvents_burstEvents (p : Event → Bool) (b : Bool) (h : ∀ o i, p (.xfer o i) = b)
    (us : Nat) (t0 t1 : Byte) (bs : List Byte) :
    countEvents p (burstEvents us t0 t1 bs) =
      countEvents p [.sel, .xfer 0x68 t0, .xfer 0x00 t1] + (if b then bs.length else 0) +
        countEvents p [.desel, .delay us] := by
  rw [burstEvents, countEvents_append, countEvents_append, countEvents_xfers p b h]

/-- Settles O52: two transactions of two bytes, or one of twenty-two. -/
theorem transactionsAndEventCounts : Obligations.TransactionsAndEventCounts := by
  intro us c ins ev r h
  cases runEvents_of_run h with
  | read a i0 i1 i2 i3 =>
    exact ⟨_, transactions_two_frames .., .inl ⟨.inl ⟨a, rfl⟩, rfl, rfl, rfl, rfl, rfl⟩⟩
  | write a d i0 i1 i2 i3 =>
    exact ⟨_, transactions_two_frames .., .inl ⟨.inr ⟨a, d, rfl⟩, rfl, rfl, rfl, rfl, rfl⟩⟩
  | burst hc t0 t1 hlen =>
    refine ⟨_, transactions_burstEvents .., .inr ⟨hc, ?_, ?_, ?_, ?_, ?_⟩⟩
    · rw [hlen]; rfl
    · rw [countEvents_burstEvents _ false fun _ _ => rfl]; rfl
    · rw [countEvents_burstEvents _ true fun _ _ => rfl, hlen]; rfl
    · rw [countEvents_burstEvents _ false fun _ _ => rfl]; rfl
    · rw [countEvents_burstEvents _ false fun _ _ => rfl]; rfl

end Sys2Proof
end

section
/-! One micro-op by itself (spec/40_sequencer.md R111, R112, R121): the state it leaves where it is enabled, the
fault where it is not, and the hold of a transfer without an answer. -/

namespace Sys2Proof.Machine

/-! ### Enabled and answered -/

theorem microOp_sel {s : State} (hs : s.seld = false) :
    microOp .sel s = .next ((((s.setBus s.bus.select).setSeld true).advance).emit .sel) :=
  if_neg (by simp [hs])

theorem microOp_desel {s : State} (hs : s.seld = true) :
    microOp .desel s = .next (((s.setSeld false).advance).emit .desel) :=
  if_pos hs

theorem microOp_stall {s : State} (hs : s.seld = false) :
    microOp .stall s = .next (s.advance.emit (.delay s.cfg.tStallUs)) :=
  if_neg (by simp [hs])

theorem transferOp_answered {o i : Byte} {keep : Byte → State → State} {s : State} {b : Transport}
    (hs : s.seld = true) (hi : s.bus.transfer o = (some i, b)) :
    transferOp o keep s = .next (((keep i (s.setBus b)).advance).emit (.xfer o i)) := by
  rw [transferOp, if_pos hs, hi]

/-! ### Not answered -/

theorem transferOp_unanswered {o : Byte} {keep : Byte → State → State} {s : State}
    (hs : s.seld = true) (hn : (s.bus.transfer o).1 = none) :
    transferOp o keep s = .next (s.setBus (s.bus.transfer o).2) := by
  have hpair : s.bus.transfer o = (none, (s.bus.transfer o).2) := Prod.ext hn rfl
  rw [transferOp, if_pos hs, hpair]

/-- A transfer without an answer changes the transport alone (R121). -/
theorem microOp_unanswered {m : MicroOp} {o : Byte} {s : State} (hm : m = .tx o ∨ ∃ k, m = .xr o k)
    (hs : s.seld = true) (hn : (s.bus.transfer o).1 = none) :
    microOp m s = .next (s.setBus (s.bus.transfer o).2) := by
  obtain rfl | ⟨k, rfl⟩ := hm
  · exact transferOp_unanswered (keep := fun _ t => t) hs hn
  · exact transferOp_unanswered hs hn

/-- What waits is a transfer on a selected bus that the transport does not answer (R121). -/
theorem waitsOn_iff {m : MicroOp} {s : State} :
    waitsOn m s = true ↔
      ∃ o, (m = .tx o ∨ ∃ k, m = .xr o k) ∧ s.seld = true ∧ (s.bus.transfer o).1 = none := by
  cases m <;> simp [waitsOn]

/-! ### Not enabled -/

/-- A micro-op whose condition on `SELD` fails takes no next state (R111; the fault is log 9). -/
theorem microOp_fault {m : MicroOp} {s : State}
    (h : s.seld ≠ decide (needsPhase m = .selected)) : microOp m s = .fault .notEnabled := by
  cases m with
  | sel | stall =>
    have hs : s.seld = true := by simpa [needsPhase] using h
    exact if_pos hs
  | tx | xr | desel =>
    have hs : ¬s.seld = true := by simpa [needsPhase] using h
    exact if_neg hs

theorem microOp_ne_next {m : MicroOp} {s t : State}
    (h : s.seld ≠ decide (needsPhase m = .selected)) : microOp m s ≠ .next t := by
  rw [microOp_fault h]
  nofun

/-- The sequencer gets to a micro-op with the bus as that micro-op needs it (R37, R111). -/
theorem State.Inv.seld_eq_needsPhase {s : State} {m : MicroOp} (h : s.Inv) (hb : s.busy = true)
    (hm : s.program[s.ph]? = some m) : s.seld = decide (needsPhase m = .selected) := by
  obtain ⟨-, hbusy, -⟩ := h
  obtain ⟨-, hseld⟩ := hbusy hb
  rw [State.phaseAfter_done_of_next hm] at hseld
  rw [Bool.eq_iff_iff, hseld, decide_eq_true_iff]

theorem needsPhase_selected_iff (m : MicroOp) :
    decide (needsPhase m = .selected) = false ↔ m = .sel ∨ m = .stall := by
  cases m <;> simp [needsPhase]

/-- Settles O16: each micro-op where it is enabled, where it is not, and that the invariant enables the one at
`PH`. -/
theorem microOpEffects : Obligations.MicroOpEffects := by
  intro s
  refine ⟨microOp_sel, fun o i b => transferOp_answered (keep := fun _ t => t),
    fun o k i b => transferOp_answered, microOp_desel, microOp_stall, fun t hs => ?_,
    fun t hs => ?_, fun m hinv hb hm => ?_⟩
  · have hne : s.seld ≠ false := by simp [hs]
    exact ⟨microOp_ne_next hne, microOp_ne_next hne⟩
  · have hne : s.seld ≠ true := by simp [hs]
    exact ⟨microOp_ne_next hne, fun o k => ⟨microOp_ne_next hne, microOp_ne_next hne⟩⟩
  · rw [hinv.seld_eq_needsPhase hb hm]
    exact needsPhase_selected_iff m

/-- Settles O17: the twenty receiving micro-ops of a burst written out. -/
theorem microProgramTable : Obligations.MicroProgramTable :=
  fun _ _ => ⟨rfl, rfl, rfl, rfl⟩

end Sys2Proof.Machine
end

section
/-! One step of the machine, case by case (spec/40_sequencer.md R113 to R116, R121). -/

namespace Sys2Proof.Machine

/-! ### With `BUSY = 0` -/

/-- Settles O14: acceptance is what the step does with a bus command on the port. -/
theorem acceptanceStep : Obligations.AcceptanceStep := by
  intro s hb hr
  exact ⟨fun a hc => ⟨none, step_idle hr hb hc⟩, fun a d hc => ⟨none, step_idle hr hb hc⟩,
    fun hc => ⟨none, step_idle hr hb hc⟩, fun hc => ⟨none, step_idle hr hb hc⟩⟩

theorem scaleCommand_of_hasScl {s : State} (c : Instr) (k : ScaleConst) (v : Word16)
    (h : s.cfg.hasScl = true) :
    scaleCommand c k v s = pureCommand c (.scaled (scaleBy s.cfg.floatFmt k v)) s :=
  if_pos h

/-- A pure command's step records `Cmd` and `Rsp` and leaves every register alone (R116). -/
theorem pureCommand_tick {s : State} (c : Instr) (r : Response) (hb : s.busy = false) :
    pureCommand c r s.tick = .next { s with
      rsp := some r, host := s.host.tail, trace := s.trace ++ [.cmd c, .rsp r] } := by
  have htrace : s.trace ++ [.cmd c, .rsp r] = (s.trace ++ [.cmd c]) ++ [.rsp r] := by simp
  rw [pureCommand_idle (s := s.tick) hb, htrace]
  rfl

/-- Settles O15: each of the seven commands is a `pureCommand`, the SCALE commands because they are on the port
only with unit `SCL`. -/
theorem pureCommandStep : Obligations.PureCommandStep := by
  intro s c r hb hr hc hcases
  obtain ⟨-, hscl⟩ := State.presented_some hc
  have hstart : startCommand c s.tick = pureCommand c r s.tick := by
    obtain ⟨w, rfl, rfl⟩ | ⟨w, rfl, rfl⟩ | ⟨v, rfl, rfl⟩ | ⟨v, rfl, rfl⟩ | ⟨v, rfl, rfl⟩ |
      ⟨v, rfl, rfl⟩ | ⟨v, rfl, rfl⟩ := hcases
    · rfl
    · rfl
    all_goals exact scaleCommand_of_hasScl _ _ _ (hscl rfl)
  rw [step_idle hr hb hc, hstart, pureCommand_tick c r hb]

/-! ### With `BUSY = 1` -/

theorem sequencerStep_of_microOp {s : State} {m : MicroOp} (hm : s.program[s.ph]? = some m) :
    sequencerStep s = microOp m s := by
  rw [sequencerStep, hm]

theorem sequencerStep_of_end {s : State} (hp : s.ph = s.program.length) :
    sequencerStep s = .next s.finish := by
  rw [sequencerStep, List.getElem?_eq_none hp.ge, if_pos hp]

/-- A step with a command in flight and a micro-op left is that micro-op (R114). -/
theorem step_of_microOp {s : State} {m : MicroOp} (hb : s.busy = true) (hr : s.hostNow.rst = false)
    (hm : s.program[s.ph]? = some m) : step s = microOp m s.tick :=
  (step_busy hr hb).trans (sequencerStep_of_microOp (s := s.tick) hm)

theorem State.waiting_of_microOp {s : State} {m : MicroOp} (hm : s.program[s.ph]? = some m) :
    s.waiting = waitsOn m s := by
  rw [State.waiting, hm]

theorem State.exists_microOp_of_waiting {s : State} (h : s.waiting = true) :
    ∃ m, s.program[s.ph]? = some m := by
  cases hm : s.program[s.ph]? with
  | some m => exact ⟨m, rfl⟩
  | none => simp [State.waiting, hm] at h

/-- A micro-op leaves the latched command and the response port alone, and is done unless it waits for an
answer. -/
theorem microOp_keeps {m : MicroOp} {s t : State} (h : microOp m s = .next t) :
    t.op = s.op ∧ t.a = s.a ∧ t.d = s.d ∧ t.rsp = s.rsp ∧
      (t.ph = s.ph + 1 ∨ waitsOn m s = true) := by
  obtain ⟨-, -, rfl⟩ | ⟨-, -, rfl⟩ | ⟨-, -, rfl⟩ | ⟨o, i, -, -, -, rfl⟩ | ⟨o, k, i, -, -, -, rfl⟩ |
    ⟨o, hm, hs, hn, rfl⟩ := microOp_next h
  · exact ⟨rfl, rfl, rfl, rfl, .inl rfl⟩
  · exact ⟨rfl, rfl, rfl, rfl, .inl rfl⟩
  · exact ⟨rfl, rfl, rfl, rfl, .inl rfl⟩
  · exact ⟨rfl, rfl, rfl, rfl, .inl rfl⟩
  · exact ⟨rfl, rfl, rfl, rfl, .inl rfl⟩
  · exact ⟨rfl, rfl, rfl, rfl, .inr (waitsOn_iff.2 ⟨o, hm, hs, hn⟩)⟩

/-- A micro-op that does not wait for an answer is done. -/
theorem microOpTo_of_not_waitsOn {m : MicroOp} {s t : State} (h : microOp m s = .next t)
    (hw : waitsOn m s = false) : ∃ i, s.MicroOpTo m i t := by
  obtain hdone | ⟨b, rfl⟩ := microOp_done_or_held h
  · exact hdone
  · obtain ⟨-, -, -, -, hph | hw'⟩ := microOp_keeps h
    · exact absurd hph (Nat.succ_ne_self s.ph).symm
    · exact absurd (hw.symm.trans hw') Bool.false_ne_true

theorem microOp_next_of_enabled {m : MicroOp} {s : State}
    (h : s.seld = decide (needsPhase m = .selected)) : ∃ t, microOp m s = .next t := by
  refine microOp_enabled m s ?_
  cases m <;> exact h

theorem MicroOp.event_isBus (us : Nat) (i : Byte) (m : MicroOp) : (m.event us i).isBus = true := by
  cases m <;> rfl

/-- Settles O18: the invariant enables the micro-op at `PH`, and answered it is done. -/
theorem sequencerTakesOneMicroOpAStep : Obligations.SequencerTakesOneMicroOpAStep := by
  intro s hinv hb hr hlt hw
  have hm : s.program[s.ph]? = some s.program[s.ph] := List.getElem?_eq_getElem hlt
  obtain ⟨t, ht⟩ := microOp_next_of_enabled (s := s.tick) (hinv.seld_eq_needsPhase hb hm)
  obtain ⟨i, hto⟩ := microOpTo_of_not_waitsOn ht ((State.waiting_of_microOp hm).symm.trans hw)
  obtain ⟨hop, ha, hd, hrsp, -⟩ := microOp_keeps ht
  exact ⟨_, t, _, hm, ht, (step_of_microOp hb hr hm).trans ht, hto.ph, hto.trace,
    MicroOp.event_isBus _ _ _, hto.busy.trans hb, hop, ha, hd, hrsp⟩

/-- Settles O19: the sequencer waits only on a transfer without an answer. -/
theorem unansweredTransferHoldsBlock : Obligations.UnansweredTransferHoldsBlock := by
  intro s hb hr hw
  obtain ⟨m, hm⟩ := State.exists_microOp_of_waiting hw
  obtain ⟨o, ho, hs, hn⟩ := waitsOn_iff.1 ((State.waiting_of_microOp hm).symm.trans hw)
  have hat : s.program[s.ph]? = some (.tx o) ∨ ∃ k, s.program[s.ph]? = some (.xr o k) :=
    ho.imp (fun h => hm.trans (congrArg some h)) fun ⟨k, h⟩ => ⟨k, hm.trans (congrArg some h)⟩
  exact ⟨hs, o, hat, hn,
    (step_of_microOp hb hr hm).trans (microOp_unanswered (s := s.tick) ho hs hn)⟩

/-- Settles O20: the end step delivers `responseOf`, by the bytes it is made of. -/
theorem endStepDeliversResponse : Obligations.EndStepDeliversResponse := by
  intro s hb hr hp
  refine ⟨responseOf s.op s.rx, (step_busy hr hb).trans (sequencerStep_of_end (s := s.tick) hp),
    fun hop => ?_, fun hop => ?_, fun hop => ?_, fun hop => ?_⟩
  · rw [hop, responseOf_read]
  · rw [hop, responseOf_write]
  · rw [hop, responseOf_burstw]
    exact ⟨_, _, rfl, fun j => Vector.getElem_ofFn j.isLt, rfl⟩
  · rw [hop, responseOf_burstb]

end Sys2Proof.Machine
end

section
/-! Frames on a bus that does not take them (spec/40_sequencer.md R111, R121). -/

namespace Sys2Proof.Machine

theorem fillTo_xfer (k : Option (Fin 20)) :
    fillTo k = .tx fillByte ∨ ∃ j, fillTo k = .xr fillByte j := by
  cases k with
  | none => exact .inl rfl
  | some j => exact .inr ⟨j, rfl⟩

/-- What `exec` does first of a frame is a transfer (R85). -/
theorem frameOps_head {f : Instr} (hf : f.isCommand = false) (s : State) :
    ∃ m o ms, frameOps f s = m :: ms ∧ (m = .tx o ∨ ∃ k, m = .xr o k) := by
  by_cases h : f = .fill
  · exact ⟨_, _, _, h ▸ frameOps_fill s, fillTo_xfer _⟩
  · obtain ⟨o, p, hop⟩ := frameProgram_of_not_isCommand hf
    exact ⟨_, o, _, (frameOps_of_ne_fill s h).trans hop, .inl rfl⟩

theorem needsPhase_of_xfer {m : MicroOp} {o : Byte} (hm : m = .tx o ∨ ∃ k, m = .xr o k) :
    needsPhase m = .selected := by
  obtain rfl | ⟨k, rfl⟩ := hm <;> rfl

/-- Settles O43: the first transfer needs a selected bus. -/
theorem framesNeedASelectedBus : Obligations.FramesNeedASelectedBus := by
  intro f s hf hs
  obtain ⟨m, o, ms, hops, hm⟩ := frameOps_head hf s
  have hw : ¬waitsOn m s = true := fun hw => by
    obtain ⟨-, -, hs', -⟩ := waitsOn_iff.1 hw
    exact Bool.false_ne_true (hs.symm.trans hs')
  have hfault : microOp m s = .fault .notEnabled :=
    microOp_fault (by simp [needsPhase_of_xfer hm, hs])
  rw [exec_frame hf, hops, runMicroOps, if_neg hw, hfault]

/-- Settles O44: `exec` does not attempt a transfer that waits for its answer. -/
theorem unansweredFrameChangesNothing : Obligations.UnansweredFrameChangesNothing := by
  intro f s xs n hf hs hbus
  obtain ⟨m, o, ms, hops, hm⟩ := frameOps_head hf s
  have hn : (s.bus.transfer o).1 = none := by rw [hbus]; rfl
  rw [exec_frame hf, hops, runMicroOps, if_pos (waitsOn_iff.2 ⟨o, hm, hs, hn⟩)]

end Sys2Proof.Machine
end

section
/-! A bus command as what its acceptance latches (spec/40_sequencer.md R113), and the machine's steps through it
(R119, R122). -/

namespace Sys2Proof.Machine

/-- What acceptance of a bus command latches in a block with operands `a₀` and `d₀`: `OP`, `A` and `D` (R113). -/
inductive Latches (a₀ : Addr) (d₀ : Word16) : Instr → BusOp → Addr → Word16 → Prop
  | read (a : Addr) : Latches a₀ d₀ (.read a) .read a d₀
  | write (a : Addr) (d : Word16) : Latches a₀ d₀ (.write a d) .write a d
  | burstw : Latches a₀ d₀ .burstw .burstw a₀ d₀
  | burstb : Latches a₀ d₀ .burstb .burstb a₀ d₀

theorem exists_latches {c : Instr} (h : commandProgram c ≠ []) (a₀ : Addr) (d₀ : Word16) :
    ∃ op a d, Latches a₀ d₀ c op a d := by
  cases c with
  | read a => exact ⟨_, _, _, .read a⟩
  | write a d => exact ⟨_, _, _, .write a d⟩
  | burstw => exact ⟨_, _, _, .burstw⟩
  | burstb => exact ⟨_, _, _, .burstb⟩
  | cksum | valid | scaleAccel | scaleGyro | scaleTemp | scaleDang | scaleDvel | wrLo | wrHi | rq
  | fill | trig => exact absurd rfl h

namespace Latches

variable {a₀ a : Addr} {d₀ d : Word16} {c : Instr} {op : BusOp} {s : State}

theorem commandProgram_eq (h : Latches a₀ d₀ c op a d) : commandProgram c = prog op a d := by
  cases h <;> rfl

/-- Acceptance, the micro-ops, the end (R122). -/
theorem stepCount_eq (h : Latches a₀ d₀ c op a d) : stepCount c = (prog op a d).length + 1 + 1 := by
  rw [prog_length]
  cases h <;> rfl

theorem startCommand_eq (h : Latches s.a s.d c op a d) :
    startCommand c s = .next (accept op c a d s) := by
  cases h <;> rfl

theorem exec_eq (h : Latches s.a s.d c op a d) : exec c s = busCommand op c a d s := by
  cases h <;> rfl

theorem step_eq (h : Latches s.a s.d c op a d) (hr : s.hostNow.rst = false) (hb : s.busy = false)
    (hc : s.presented = some c) : step s = .next (accept op c a d s.tick) :=
  (step_idle hr hb hc).trans (startCommand_eq (s := s.tick) h)

theorem ticks (h : Latches s.a s.d c op a d) (n : Nat) :
    Latches (s.ticks n).a (s.ticks n).d c op a d := by
  obtain ⟨-, -, ha, hd, -⟩ := s.ticks_fields n
  rwa [ha, hd]

/-- A bus command whose transfers are all answered (R118, R119). -/
theorem exec_answered (h : Latches s.a s.d c op a d) {ins : List Byte} {b : Transport}
    (hq : s.Quiescent) (hp : s.bus.play (commandProgram c) = some (ins, b)) :
    exec c s = .next ((accept op c a d s).afterOps (prog op a d) ins b).finish := by
  rw [h.commandProgram_eq] at hp
  exact h.exec_eq.trans (busCommand_quiescent hq hp)

end Latches

theorem State.Quiescent.ticks {s : State} (h : s.Quiescent) (n : Nat) : (s.ticks n).Quiescent := by
  obtain ⟨hb, -, -, -, -, hs, -⟩ := s.ticks_fields n
  rw [State.Quiescent, hb, hs]
  exact h

/-- A command of the port without a micro-program takes one step (R116, R122). -/
theorem stepCount_of_pure {c : Instr} (hc : c.isCommand = true) (h : commandProgram c = []) :
    stepCount c = 1 := by
  cases c with
  | cksum | valid | scaleAccel | scaleGyro | scaleTemp | scaleDang | scaleDvel => rfl
  | read | write | burstw | burstb => cases h
  | wrLo | wrHi | rq | fill | trig => cases hc

/-- The steps of a bus command are its `exec` under the host's inputs of those steps (R119, R122). -/
theorem run_busCommand {s : State} {c : Instr} (hq : s.Quiescent) (hc : s.presented = some c)
    (hr : s.NoReset (stepCount c)) (hne : commandProgram c ≠ [])
    (hplay : (s.bus.play (commandProgram c)).isSome = true) :
    Host.Core.run core (stepCount c) s = exec c (s.ticks (stepCount c)) := by
  obtain ⟨op, a, d, hl⟩ := exists_latches hne s.a s.d
  obtain ⟨⟨ins, b⟩, hp⟩ := Option.isSome_iff_exists.1 hplay
  obtain ⟨-, -, -, -, -, -, -, -, hbus, -⟩ := s.ticks_fields (stepCount c)
  rw [(hl.ticks _).exec_answered (hq.ticks _) (hbus.symm ▸ hp)]
  rw [hl.commandProgram_eq] at hp
  rw [hl.stepCount_eq] at hr ⊢
  obtain ⟨hb, hs⟩ := hq
  have hen : opsEnabled s.seld (prog op a d) = true := by rw [hs]; exact prog_enabled op a d
  have hrun := run_play (s := accept op c a d s.tick) rfl rfl (Nat.zero_le _)
    (State.NoReset_of_host (s := s.tick) rfl (State.NoReset_tick hr)) hen hp
  rw [accept_ticks] at hrun
  exact (run_succ (hl.step_eq (State.NoReset_now hr) hb hc)).trans hrun

/-- Settles O26: a bus command runs through its micro-program, a pure command is its own step. -/
theorem stepsOfACommandAreItsExec : Obligations.StepsOfACommandAreItsExec := by
  intro s c hq hc hr hplay
  by_cases hne : commandProgram c = []
  · obtain ⟨hcmd, -⟩ := State.presented_some hc
    have h1 : stepCount c = 1 := stepCount_of_pure hcmd hne
    obtain ⟨hb, -⟩ := hq
    obtain ⟨t, ht⟩ := startCommand_total c (s := s.tick) hb
    rw [h1] at hr ⊢
    rw [run_succ ((step_idle (State.NoReset_now hr) hb hc).trans ht), run_zero]
    exact ht.symm.trans (startCommand_eq_exec s.tick h1)
  · exact run_busCommand hq hc hr hne hplay

/-! ### Part of a micro-program -/

theorem opsEnabled_of_append {ms ns : List MicroOp} : ∀ {b : Bool},
    opsEnabled b (ms ++ ns) = true → opsEnabled b ms = true := by
  induction ms with
  | nil => intro b _; rfl
  | cons m ms ih =>
    intro b h
    cases m with
    | sel | tx | xr | desel | stall =>
      simp only [List.cons_append, opsEnabled, Bool.and_eq_true] at h ⊢
      exact ⟨h.1, ih h.2⟩

theorem isSome_play_xfer {m : MicroOp} {o : Byte} {ms : List MicroOp} {b : Transport}
    (hm : m = .tx o ∨ ∃ k, m = .xr o k) :
    (Transport.play (m :: ms) b).isSome =
      ((b.transfer o).1.isSome && (Transport.play ms (b.transfer o).2).isSome) := by
  have hplay : Transport.play (m :: ms) b = match b.transfer o with
      | (some i, b') => (Transport.play ms b').map fun p => (i :: p.1, p.2)
      | (none, _) => none := by
    obtain rfl | ⟨k, rfl⟩ := hm <;> rfl
  rw [hplay]
  split
  · next h => rw [h, Option.isSome_map, Option.isSome_some, Bool.true_and]
  · next h => rw [h]; rfl

theorem isSome_play_of_append {ms ns : List MicroOp} : ∀ {b : Transport},
    (Transport.play (ms ++ ns) b).isSome = true → (Transport.play ms b).isSome = true := by
  induction ms with
  | nil => intro b _; rfl
  | cons m ms ih =>
    intro b h
    have hxfer {o : Byte} (hm : m = .tx o ∨ ∃ k, m = .xr o k) :
        (Transport.play (m :: ms) b).isSome = true := by
      rw [List.cons_append, isSome_play_xfer hm, Bool.and_eq_true] at h
      rw [isSome_play_xfer hm, Bool.and_eq_true]
      exact ⟨h.1, ih h.2⟩
    cases m with
    | sel | desel | stall => exact ih h
    | tx o => exact hxfer (.inl rfl)
    | xr o k => exact hxfer (.inr ⟨k, rfl⟩)

theorem State.ticks_rsp {s : State} (h : s.rsp = none) (n : Nat) : (s.ticks n).rsp = none := by
  induction n generalizing s with
  | zero => exact h
  | succ n ih => exact ih (s := s.tick) rfl

/-- While the transport answers, a command in flight stays in flight through any part of its micro-program, and
delivers nothing (R114, R122). -/
theorem run_part_busy {s : State} (n : Nat) (hb : s.busy = true) (hrsp : s.rsp = none)
    (hph : s.ph = 0) (hn : n ≤ s.program.length) (hr : s.NoReset n)
    (he : opsEnabled s.seld s.program = true) (hp : (s.bus.play s.program).isSome = true) :
    ∃ t, Host.Core.run core n s = .next t ∧ t.busy = true ∧ t.rsp = none := by
  have hsplit : s.program.take n ++ s.program.drop n = s.program := List.take_append_drop n _
  have hlen : (s.program.take n).length = n := List.length_take_of_le hn
  obtain ⟨⟨ins, b⟩, hp'⟩ :=
    Option.isSome_iff_exists.1 (isSome_play_of_append (hsplit.symm ▸ hp))
  have hrun := run_play_part (rest := s.program.drop n) hb (by rw [hph, hsplit]; rfl)
    (hlen.symm ▸ hr) (opsEnabled_of_append (hsplit.symm ▸ he)) hp'
  rw [hlen] at hrun
  obtain ⟨hbusy, -⟩ := s.ticks_fields n
  exact ⟨_, hrun, hbusy.trans hb, State.ticks_rsp hrsp n⟩

/-- Settles O27: after acceptance, part of the micro-program. -/
theorem busCommandIsBusyUntilItsLastStep : Obligations.BusCommandIsBusyUntilItsLastStep := by
  intro s c n hq hc hr hne hplay h0 hn
  obtain ⟨k, rfl⟩ : ∃ k, n = k + 1 := Nat.exists_eq_succ_of_ne_zero h0.ne'
  obtain ⟨op, a, d, hl⟩ := exists_latches hne s.a s.d
  obtain ⟨hb, hs⟩ := hq
  have hr : s.NoReset (k + 1) := fun x hx => hr x (List.take_subset_take_left _ hn.le hx)
  rw [hl.stepCount_eq] at hn
  rw [hl.commandProgram_eq] at hplay
  rw [run_succ (hl.step_eq (State.NoReset_now hr) hb hc)]
  refine run_part_busy k rfl rfl rfl ?_ ?_ ?_ hplay
  · rw [accept_program]
    omega
  · exact State.NoReset_of_host (s := s.tick) rfl (State.NoReset_tick hr)
  · rw [accept_seld, accept_program, State.tick_seld, hs]
    exact prog_enabled op a d

end Sys2Proof.Machine
end

section
/-! The sequencer against the big-step form, and what is sent against what is received (spec/40_sequencer.md R118,
R119). -/

namespace Sys2Proof.Machine

theorem burstBuffer_toList (v : Vector Byte 20) : burstBuffer v.toList = some v := by
  rw [burstBuffer, dif_pos v.length_toList]
  rfl

/-- The bytes a burst receives: two with the trigger, then the twenty of the buffer (R112). -/
theorem exists_burst_bytes {ins : List Byte} (h : ins.length = 22) :
    ∃ t0 t1, ∃ v : Vector Byte 20, ins = t0 :: t1 :: v.toList := by
  match ins, h with
  | t0 :: t1 :: bs, h => exact ⟨t0, t1, ⟨bs.toArray, by simpa using h⟩, rfl⟩

/-- The big-step form gives the events and the response of the micro-program (R118). -/
theorem run_eq_eventsAfter {a₀ a : Addr} {d₀ d : Word16} {c : Instr} {op : BusOp} {ins : List Byte}
    (us : Nat) (rx : Vector Byte 20) (h : Latches a₀ d₀ c op a d)
    (hlen : ins.length = transferCount (prog op a d)) :
    run us c ins = some (eventsAfter us (prog op a d) ins,
      responseOf op (rxAfter (prog op a d) ins rx)) := by
  rw [transferCount_prog] at hlen
  cases h with
  | read =>
    obtain ⟨i, j, k, l, rfl⟩ := List.length_eq_four.1 hlen
    rw [responseOf_rxAfter_read, run, frameEvents, hiByte_rqWord, loByte_rqWord]
    rfl
  | write =>
    obtain ⟨i, j, k, l, rfl⟩ := List.length_eq_four.1 hlen
    rfl
  | burstw =>
    obtain ⟨t0, t1, v, rfl⟩ := exists_burst_bytes hlen
    rw [burst_eventsAfter us _ (.inl rfl), burst_rxAfter _ (.inl rfl), responseOf_burstw, run,
      burstBuffer_toList]
    rfl
  | burstb =>
    obtain ⟨t0, t1, v, rfl⟩ := exists_burst_bytes hlen
    rw [burst_eventsAfter us _ (.inr rfl), burst_rxAfter _ (.inr rfl), responseOf_burstb, run,
      burstBuffer_toList]
    rfl

/-- Settles O29: `exec` is the whole micro-program, whose events and response `run` gives. -/
theorem execAgreesWithBigStep : Obligations.ExecAgreesWithBigStep := by
  intro s c ins b hq hne hp
  obtain ⟨op, a, d, hl⟩ := exists_latches hne s.a s.d
  have hlen : ins.length = transferCount (prog op a d) := play_length (hl.commandProgram_eq ▸ hp)
  refine ⟨_, _, _, run_eq_eventsAfter _ s.rx hl hlen, hl.exec_answered hq hp, rfl, rfl, rfl, rfl, ?_⟩
  obtain ⟨-, hs⟩ := hq
  exact (congrArg (seldAfter · (prog op a d)) hs).trans (prog_seldAfter op a d)

/-! ### What the sensor sees -/

theorem sensorView_append (es fs : List Event) :
    sensorView (es ++ fs) = sensorView es ++ sensorView fs := by
  rw [sensorView, busTrace, List.filter_append, List.map_append]
  rfl

/-- The sensor sees of a list of micro-ops what it would see if only zeros were received. -/
theorem sensorView_eventsAfter (us : Nat) {ms : List MicroOp} : ∀ {ins : List Byte},
    ins.length = transferCount ms →
    sensorView (eventsAfter us ms ins) =
      eventsAfter us ms (List.replicate (transferCount ms) 0) := by
  induction ms with
  | nil => intro ins _; rfl
  | cons m ms ih =>
    intro ins h
    have hxfer {o : Byte} (hm : m = .tx o ∨ ∃ k, m = .xr o k) :
        sensorView (eventsAfter us (m :: ms) ins) =
          eventsAfter us (m :: ms) (List.replicate (transferCount (m :: ms)) 0) := by
      obtain rfl | ⟨k, rfl⟩ := hm
      all_goals
        obtain ⟨i, is, rfl⟩ := List.exists_cons_of_length_eq_add_one h
        exact congrArg (Event.xfer o 0 :: ·) (ih (Nat.succ.inj h))
    cases m with
    | sel => exact congrArg (Event.sel :: ·) (ih h)
    | desel => exact congrArg (Event.desel :: ·) (ih h)
    | stall => exact congrArg (Event.delay us :: ·) (ih h)
    | tx o => exact hxfer (.inl rfl)
    | xr o k => exact hxfer (.inr ⟨k, rfl⟩)

/-- What the sensor sees of a bus command is a matter of the command alone (R118). -/
theorem exec_sensorView {s : State} {c : Instr} (hq : s.Quiescent) (hne : commandProgram c ≠ [])
    (hplay : (s.bus.play (commandProgram c)).isSome = true) :
    ∃ t, exec c s = .next t ∧ sensorView t.trace = sensorView s.trace ++
      eventsAfter s.cfg.tStallUs (commandProgram c)
        (List.replicate (transferCount (commandProgram c)) 0) := by
  obtain ⟨op, a, d, hl⟩ := exists_latches hne s.a s.d
  obtain ⟨⟨ins, b⟩, hp⟩ := Option.isSome_iff_exists.1 hplay
  have hlen : ins.length = transferCount (commandProgram c) := play_length hp
  refine ⟨_, hl.exec_answered hq hp, ?_⟩
  rw [← sensorView_eventsAfter s.cfg.tStallUs hlen, hl.commandProgram_eq]
  have htrace : ((accept op c a d s).afterOps (prog op a d) ins b).finish.trace =
      s.trace ++ [.cmd c] ++ eventsAfter s.cfg.tStallUs (prog op a d) ins ++ [.rsp _] := rfl
  have hcmd : sensorView [.cmd c] = [] := rfl
  have hrsp (r : Response) : sensorView [.rsp r] = [] := rfl
  rw [htrace, sensorView_append, sensorView_append, sensorView_append, hcmd, hrsp, List.append_nil,
    List.append_nil]

/-- Starting a command records the same events whatever stands behind the bus (R113, R116). -/
theorem startCommand_trace_setBus {s : State} (c : Instr) (b : Transport) (hb : s.busy = false) :
    ∃ t u, startCommand c s = .next t ∧ startCommand c (s.setBus b) = .next u ∧
      t.trace = u.trace := by
  obtain ⟨op, a, d, hacc, -⟩ | ⟨r, hresp⟩ := startCommand_reads c
  · exact ⟨_, _, hacc s, hacc _, rfl⟩
  · refine ⟨_, _, hresp s hb, hresp (s.setBus b) hb, ?_⟩
    rw [State.setBus_cfg]
    cases r s.cfg <;> rfl

/-- Settles O30: a bus command by its micro-program, a pure command because it makes no transfer. -/
theorem sentBytesIgnoreReceivedBytes : Obligations.SentBytesIgnoreReceivedBytes := by
  intro s c b hq hs hb hcmd
  by_cases hne : commandProgram c = []
  · have h1 : stepCount c = 1 := stepCount_of_pure hcmd hne
    obtain ⟨hbusy, -⟩ := hq
    obtain ⟨t, u, ht, hu, htrace⟩ := startCommand_trace_setBus c b hbusy
    rw [startCommand_eq_exec _ h1] at ht hu
    exact ⟨t, u, ht, hu, congrArg sensorView htrace⟩
  · obtain ⟨t, ht, htv⟩ := exec_sensorView hq hne hs
    obtain ⟨u, hu, huv⟩ := exec_sensorView (s := s.setBus b) hq hne hb
    exact ⟨t, u, ht, hu, htv.trans huv.symm⟩

end Sys2Proof.Machine
end

section
/-! READ and WRITE by their bytes (spec/41_register_access.md R141, R144 to R146). -/

namespace Sys2Proof.Machine

/-! ### The state a bus command leaves -/

/-- An answered bus command by the fields it writes: the latches, `PH` past the micro-program, `RX`, and the
response, with its events; `BUSY` and `SELD` end as they began (R113 to R115). -/
theorem Latches.exec_fields {s : State} {c : Instr} {op : BusOp} {a : Addr} {d : Word16}
    {ins : List Byte} {b : Transport} (h : Latches s.a s.d c op a d) (hq : s.Quiescent)
    (hp : s.bus.play (prog op a d) = some (ins, b)) :
    exec c s = .next { s with
      op := op, a := a, d := d, ph := (prog op a d).length, rx := rxAfter (prog op a d) ins s.rx,
      bus := b, rsp := some (responseOf op (rxAfter (prog op a d) ins s.rx)),
      trace := s.trace ++ (.cmd c :: eventsAfter s.cfg.tStallUs (prog op a d) ins ++
        [.rsp (responseOf op (rxAfter (prog op a d) ins s.rx))]) } := by
  rw [h.exec_answered hq (h.commandProgram_eq ▸ hp)]
  obtain ⟨hbusy, hseld⟩ := hq
  have hseldEnd : seldAfter s.seld (prog op a d) = s.seld := by
    rw [hseld]
    exact prog_seldAfter op a d
  simp [State.finish, State.respond, State.afterOps, accept, State.emit, hbusy, hseldEnd]

/-! ### READ -/

/-- Settles O32: the transactions of R141, of which the second fills `RX[0]` and `RX[1]`. -/
theorem readReturnsSecondFrame : Obligations.ReadReturnsSecondFrame := by
  intro a s i0 i1 m l b hq hp
  rw [(Latches.read a).exec_fields hq hp, responseOf_rxAfter_read]
  rfl

/-! ### WRITE -/

/-- The address byte of the second write frame: bit 0 set too (R144). -/
theorem writeHighAddressByte_eq (a : Addr) :
    (1#1 ++ (a ||| 1) : Byte) = 0x80 ||| a.setWidth 8 ||| 0x01 := by
  revert a
  decide

theorem hiByte_lowWord (a : Addr) (d : Word16) : hiByte (lowWord a d) = 0x80 ||| a.setWidth 8 := by
  rw [lowWord_eq_wrWord, hiByte_wrWord, writeAddressByte_eq]

theorem loByte_lowWord (a : Addr) (d : Word16) : loByte (lowWord a d) = loByte d := by
  rw [lowWord_eq_wrWord, loByte_wrWord]

theorem hiByte_highWord (a : Addr) (d : Word16) :
    hiByte (highWord a d) = 0x80 ||| a.setWidth 8 ||| 0x01 := by
  rw [highWord_eq_wrWord, hiByte_wrWord, writeHighAddressByte_eq]

theorem loByte_highWord (a : Addr) (d : Word16) : loByte (highWord a d) = hiByte d := by
  rw [highWord_eq_wrWord, loByte_wrWord]

/-- The micro-program of a WRITE by the bytes it sends: low data byte first (R144). -/
theorem prog_write_bytes (a : Addr) (d : Word16) :
    prog .write a d =
      [.sel, .tx (0x80 ||| a.setWidth 8), .tx (loByte d), .desel, .stall,
       .sel, .tx (0x80 ||| a.setWidth 8 ||| 0x01), .tx (hiByte d), .desel, .stall] := by
  rw [prog, hiByte_lowWord, loByte_lowWord, hiByte_highWord, loByte_highWord]

/-- Settles O33, by the bytes of the two write words. -/
theorem writeSendsLowThenHighByte : Obligations.WriteSendsLowThenHighByte := by
  intro a d s i0 i1 i2 i3 b hq hp
  rw [(Latches.write a d).exec_fields hq hp, responseOf_write, prog_write_bytes]
  rfl

/-- Settles O50: bit 0 of an odd address is set already, so `a | 1` is `a`. -/
theorem oddWriteSendsOneAddressTwice : Obligations.OddWriteSendsOneAddressTwice := by
  intro a d hodd
  have hsame : a ||| 1 = a := odd_or_one hodd
  refine ⟨?_, hiByte_lowWord a d, ?_, loByte_lowWord a d, loByte_highWord a d⟩
  · rw [addrWord_or_bit8, hsame]
  · rw [highWord_eq_wrWord, hsame, hiByte_wrWord, writeAddressByte_eq]

end Sys2Proof.Machine
end

section
/-! BURSTW and BURSTB: one micro-program, two responses (spec/42_burst.md R161 to R164). -/

namespace Sys2Proof.Machine

/-- An answered burst of either form: the twenty bytes after the trigger's two are `RX`, and the forms differ in
what they make of them (R112, R164). -/
theorem Latches.exec_burst {s : State} {c : Instr} {op : BusOp} {t0 t1 : Byte} {v : Vector Byte 20}
    {b : Transport} (h : Latches s.a s.d c op s.a s.d) (hop : op = .burstw ∨ op = .burstb)
    (hq : s.Quiescent) (hp : s.bus.play (prog op s.a s.d) = some (t0 :: t1 :: v.toList, b)) :
    exec c s = .next { s with
      op := op, ph := 25, rx := v, bus := b, rsp := some (responseOf op v),
      trace := s.trace ++
        (.cmd c :: burstEvents s.cfg.tStallUs t0 t1 v.toList ++ [.rsp (responseOf op v)]) } := by
  have hlen : (prog op s.a s.d).length = 25 := by
    rw [prog_length]
    obtain rfl | rfl := hop <;> rfl
  rw [h.exec_fields hq hp, burst_rxAfter op hop, burst_eventsAfter _ op hop, hlen]
  rfl

/-- The events of a burst between its `Cmd` and its `Rsp`, as one list (R162). -/
theorem cmd_burstEvents_rsp (us : Nat) (c : Instr) (t0 t1 : Byte) (bs : List Byte) (r : Response) :
    .cmd c :: burstEvents us t0 t1 bs ++ [.rsp r] =
      [.cmd c, .sel, .xfer 0x68 t0, .xfer 0x00 t1] ++ bs.map (.xfer 0x00) ++
        [.desel, .delay us, .rsp r] := by
  rw [burstEvents, ← List.cons_append, List.append_assoc]
  rfl

/-- Settles O34, by the words of the bytes in `RX`. -/
theorem burstwReturnsTenWords : Obligations.BurstwReturnsTenWords := by
  intro s t0 t1 v b hq hp
  have hexec := Latches.burstw.exec_burst (.inl rfl) hq hp
  rw [responseOf_burstw, cmd_burstEvents_rsp] at hexec
  exact ⟨_, _, fun j => Vector.getElem_ofFn j.isLt, rfl, hexec⟩

/-- Settles O35: the response is `RX` itself. -/
theorem burstbReturnsTwentyBytes : Obligations.BurstbReturnsTwentyBytes := by
  intro s t0 t1 v b hq hp
  rw [Latches.burstb.exec_burst (.inr rfl) hq hp, responseOf_burstb, cmd_burstEvents_rsp]

/-- The bus trace leaves out a command's `Cmd` and `Rsp` (R16). -/
theorem busTrace_append_command (es ev : List Event) (c : Instr) (r : Response) :
    busTrace (es ++ (.cmd c :: ev ++ [.rsp r])) = busTrace es ++ busTrace ev := by
  have hcmd : busTrace (.cmd c :: ev ++ [.rsp r]) = busTrace (ev ++ [.rsp r]) := rfl
  have hrsp : busTrace [.rsp r] = [] := rfl
  have happend (xs ys : List Event) : busTrace (xs ++ ys) = busTrace xs ++ busTrace ys :=
    List.filter_append xs ys
  rw [happend, hcmd, happend, hrsp, List.append_nil]

/-- Settles O36: both forms run the same micro-program, so on the same answers they fill `RX` with the same
bytes and make the same bus events. -/
theorem burstFormsAgree : Obligations.BurstFormsAgree := by
  intro s hq hplay
  obtain ⟨⟨ins, b⟩, hp⟩ := Option.isSome_iff_exists.1 hplay
  obtain ⟨t0, t1, v, rfl⟩ := exists_burst_bytes
    ((play_length hp).trans (transferCount_prog .burstw s.a s.d))
  refine ⟨_, _, _, _, v, Latches.burstw.exec_burst (.inl rfl) hq hp,
    Latches.burstb.exec_burst (.inr rfl) hq hp, congrArg some (responseOf_burstw v), rfl,
    fun j => Vector.getElem_ofFn j.isLt, ?_⟩
  rw [busTrace_append_command, busTrace_append_command]

end Sys2Proof.Machine
end

section
/-! The checksum, and the two commands over it (spec/43_checksum.md R181 to R190). -/

namespace Sys2Proof.Machine

/-! ### The sum of the eighteen bytes -/

/-- What the two bytes of a word add to the sum. -/
def wordByteSum (w : Word16) : Nat := (loByte w).toNat + (hiByte w).toNat

theorem cksumAdd_toNat (s w : Word16) :
    (cksumAdd s w).toNat = (s.toNat + wordByteSum w) % 65536 := by
  have hlo := (loByte w).isLt
  have hhi := (hiByte w).isLt
  simp only [cksumAdd, wordByteSum, BitVec.toNat_add, BitVec.toNat_setWidth]
  omega

/-- The loop of R181 from any accumulator, in closed form. -/
theorem foldl_cksumAdd_toNat (ws : List Word16) (s : Word16) :
    (ws.foldl cksumAdd s).toNat = (s.toNat + (ws.map wordByteSum).sum) % 65536 := by
  induction ws generalizing s with
  | nil => exact (Nat.mod_eq_of_lt s.isLt).symm
  | cons w ws ih =>
    rw [List.foldl_cons, ih, cksumAdd_toNat, Nat.mod_add_mod, List.map_cons, List.sum_cons,
      Nat.add_assoc]

theorem sum_bytesOf (w : Vector Word16 9) :
    ((bytesOf w).map BitVec.toNat).sum = (w.toList.map wordByteSum).sum := by
  rw [bytesOf]
  induction w.toList with
  | nil => rfl
  | cons x xs ih => simp [ih, wordByteSum, Nat.add_assoc]

theorem bytesOf_length (w : Vector Word16 9) : (bytesOf w).length = 18 := by
  simp [bytesOf]

/-- Each of the eighteen bytes is at most 255 (R183). -/
theorem sum_bytesOf_le (w : Vector Word16 9) : ((bytesOf w).map BitVec.toNat).sum ≤ 0x11EE := by
  have hbyte : ∀ n ∈ (bytesOf w).map BitVec.toNat, n ≤ 255 := by
    intro n hn
    obtain ⟨b, -, rfl⟩ := List.mem_map.1 hn
    exact Nat.le_of_lt_succ b.isLt
  have hsum := List.sum_le_card_nsmul _ 255 hbyte
  rwa [List.length_map, bytesOf_length] at hsum

/-- The sum never wraps, so the checksum is the sum itself (R183). -/
theorem cksumNine_toNat (w : Vector Word16 9) :
    (cksumNine w).toNat = ((bytesOf w).map BitVec.toNat).sum := by
  have hfold : (cksumNine w).toNat = (0 + ((bytesOf w).map BitVec.toNat).sum) % 65536 := by
    rw [sum_bytesOf]
    exact foldl_cksumAdd_toNat w.toList 0
  have hle := sum_bytesOf_le w
  omega

theorem cksumNine_toNat_mod (w : Vector Word16 9) :
    (cksumNine w).toNat = ((bytesOf w).map BitVec.toNat).sum % 65536 := by
  rw [← cksumNine_toNat, Nat.mod_eq_of_lt (cksumNine w).isLt]

theorem cksumNine_toNat_le (w : Vector Word16 9) : (cksumNine w).toNat ≤ 0x11EE :=
  (cksumNine_toNat w).trans_le (sum_bytesOf_le w)

theorem cksumNine_highBits (w : Vector Word16 9) : (cksumNine w).extractLsb' 13 3 = 0#3 := by
  have hle := cksumNine_toNat_le w
  apply BitVec.eq_of_toNat_eq
  rw [BitVec.extractLsb'_toNat, Nat.shiftRight_eq_div_pow, Nat.div_eq_of_lt (by omega)]
  rfl

theorem cksumNine_eq_of_perm {u v : Vector Word16 9} (h : (bytesOf u).Perm (bytesOf v)) :
    cksumNine u = cksumNine v := by
  apply BitVec.eq_of_toNat_eq
  rw [cksumNine_toNat, cksumNine_toNat, (h.map BitVec.toNat).sum_eq]

theorem toList_eq_map_finRange (w : Vector Word16 9) :
    w.toList = (List.finRange 9).map fun j => w[j] := by
  apply List.ext_getElem <;> simp

/-- Settles O54: the model's fold is the loop of R181, and a sum of numbers is the same in any order. -/
theorem checksumIsByteSum : Obligations.ChecksumIsByteSum := by
  intro w
  constructor
  · rw [cksumNine, toList_eq_map_finRange, List.foldl_map]
    rfl
  · intro bs hbs
    rw [cksumNine_toNat_mod, (hbs.map BitVec.toNat).sum_eq]

/-- Settles O55, by the bound on the sum of the bytes. -/
theorem checksumNeverWraps : Obligations.ChecksumNeverWraps :=
  ⟨fun w => ⟨cksumNine_toNat w, cksumNine_toNat_le w, cksumNine_highBits w⟩, by decide, by decide⟩

/-- Settles O56: the checksum is a function of the sum of the bytes. -/
theorem checksumIsPermutationInvariant : Obligations.ChecksumIsPermutationInvariant :=
  ⟨fun _ _ => cksumNine_eq_of_perm, cksumNine_toNat_mod, by decide⟩

/-! ### The acceptance predicate -/

theorem validBit_iff {w : Words} : validBit w = true ↔ cksum w = w[9] := beq_iff_eq

theorem validBit_eq_false_iff {w : Words} : validBit w = false ↔ cksum w ≠ w[9] :=
  beq_eq_false_iff_ne

/-- Settles O57: a word equal to a checksum has the checksum's high bits, which are 0. -/
theorem validComparesPatterns : Obligations.ValidComparesPatterns := by
  intro w
  refine ⟨validBit_iff, fun hbits => validBit_eq_false_iff.2 fun hsum => hbits ?_⟩
  rw [← hsum]
  exact cksumNine_highBits (firstNine w)

/-- The checksum of a valid sample less its tenth word is 0 (R189). -/
theorem validBit_eq_false_iff_of_validBit {w : Words} (v : Words) (h : validBit w = true) :
    validBit v = false ↔ cksum v - v[9] ≠ cksum w - w[9] := by
  rw [validBit_iff.1 h, BitVec.sub_self, validBit_eq_false_iff]
  exact sub_ne_zero.symm

theorem cksum_toNat (w : Words) :
    (cksum w).toNat = ((firstNine w).toList.map wordByteSum).sum :=
  (cksumNine_toNat (firstNine w)).trans (sum_bytesOf (firstNine w))

theorem sum_set_add_getElem (l : List Nat) (i n : Nat) (h : i < l.length) :
    (l.set i n).sum + l[i] = l.sum + n := by
  have hsplit := List.sum_take_add_sum_drop l i
  rw [List.drop_eq_getElem_cons h, List.sum_cons] at hsplit
  rw [List.sum_set, if_pos h]
  omega

theorem firstNine_set (w : Words) (k : Fin 9) (x : Word16) :
    firstNine (w.set k x) = (firstNine w).set k x := by
  apply Vector.ext
  intro i hi
  simp [firstNine, Vector.getElem_set]

/-- Replacing a word takes its two bytes out of the sum and puts the new ones in. -/
theorem cksum_set_toNat (w : Words) (k : Fin 9) (x : Word16) :
    (cksum (w.set k x)).toNat + wordByteSum w[k.val] = (cksum w).toNat + wordByteSum x := by
  have hk : k.val < ((firstNine w).toList.map wordByteSum).length := by simp
  have hset := sum_set_add_getElem _ k.val (wordByteSum x) hk
  rw [cksum_toNat, cksum_toNat, firstNine_set, Vector.toList_set, List.map_set]
  simpa [firstNine] using hset

theorem cksum_set_eq_iff (w : Words) (k : Fin 9) (x : Word16) :
    cksum (w.set k x) = cksum w ↔ wordByteSum x = wordByteSum w[k.val] := by
  have hset := cksum_set_toNat w k x
  rw [← BitVec.toNat_inj]
  omega

/-- Settles O58: with the tenth word as it was, the difference changes exactly when the checksum does. -/
theorem validDetectsExactlySumChanges : Obligations.ValidDetectsExactlySumChanges := by
  refine ⟨fun _ v h => validBit_eq_false_iff_of_validBit v h, fun w x h => ?_⟩
  have hnine : (w.set 4 x)[9] = w[9] := Vector.getElem_set_ne _ _ (by decide)
  rw [validBit_eq_false_iff, hnine, ← validBit_iff.1 h]
  exact not_congr (cksum_set_eq_iff w 4 x)

/-! ### The commands -/

/-- A pure command on an idle block records `Cmd` and `Rsp`, and only the response port changes (R116). -/
theorem pureCommand_fields {s : State} (c : Instr) (r : Response) (hb : s.busy = false) :
    pureCommand c r s = .next { s with rsp := some r, trace := s.trace ++ [.cmd c, .rsp r] } := by
  have htrace : s.trace ++ [.cmd c, .rsp r] = (s.trace ++ [.cmd c]) ++ [.rsp r] := by simp
  rw [pureCommand_idle hb, htrace]
  rfl

/-- Settles O37: both are pure commands, over the sum of the first nine words. -/
theorem checksumCommandsRespond : Obligations.ChecksumCommandsRespond := by
  intro w s hb
  exact ⟨pureCommand_fields (.cksum w) (.sum (cksum w)) hb,
    pureCommand_fields (.valid w) (.valid (validBit w)) hb⟩

end Sys2Proof.Machine
end

section
/-! The SCALE commands with unit `SCL`, and the range of their results (spec/44_scaling.md R200 to R208). -/

namespace Sys2Proof.Machine

/-! ### The commands -/

/-- A SCALE command on an idle block with the unit responds its one product, and only
the response port changes (R116, R200). -/
theorem scaleCommand_fields {s : State} (c : Instr) (k : ScaleConst) (r : Word16)
    (hb : s.busy = false) (hscl : s.cfg.hasScl = true) :
    scaleCommand c k r s = .next { s with
      rsp := some (.scaled (scaleBy s.cfg.floatFmt k r)),
      trace := s.trace ++ [.cmd c, .rsp (.scaled (scaleBy s.cfg.floatFmt k r))] } :=
  (scaleCommand_of_hasScl c k r hscl).trans (pureCommand_fields c _ hb)

/-- Settles O38: each of the five is a `scaleCommand`, with the constant R207 gives it. -/
theorem scaleCommandsRespond : Obligations.ScaleCommandsRespond := by
  intro r s hb hscl p hp
  have hexec : exec p.1 s = scaleCommand p.1 p.2 r s := by
    simp only [List.mem_cons, List.not_mem_nil, or_false] at hp
    obtain rfl | rfl | rfl | rfl | rfl := hp <;> rfl
  exact ⟨_, rfl, hexec.trans (scaleCommand_fields p.1 p.2 r hb hscl)⟩

/-! ### A zero operand -/

theorem roundTo_neg (f : FloatFmt) (neg : Bool) (num den : Nat) :
    (roundTo f neg num den).neg = neg := by
  unfold roundTo
  split <;> rfl

theorem litOf_neg (f : FloatFmt) (c : ScaleConst) : (litOf f c).neg = false :=
  roundTo_neg f false c.num c.den

theorem fmul_of_mant_zero (f : FloatFmt) {x y : FloatNum} (hx : x.mant = 0) :
    fmul f x y = { neg := x.neg != y.neg, mant := 0, exp := 0 } := by
  simp [fmul, hx, roundTo_zero]

/-- R208: both signs are positive, so the zero is. -/
theorem scaleBy_zero (f : FloatFmt) (c : ScaleConst) :
    scaleBy f c 0 = encodeFloat f { neg := false, mant := 0, exp := 0 } := by
  have hprod : fmul f (convOf 0) (litOf f c) =
      { neg := false != (litOf f c).neg, mant := 0, exp := 0 } :=
    fmul_of_mant_zero f rfl
  rw [scaleBy, hprod, litOf_neg]
  rfl

/-! ### The size of a product -/

theorem roundTo_exp_le {f : FloatFmt} {num den : Nat} {b : Int} (neg : Bool) (h0 : 0 ≤ b)
    (hmin : fmtMinExp f ≤ b)
    (h : (Nat.log2 num : Int) - (Nat.log2 den : Int) - ((fmtPrec f : Int) - 1) ≤ b) :
    (roundTo f neg num den).exp ≤ b := by
  by_cases hn : num = 0
  · rw [hn, roundTo_zero]
    exact h0
  · rw [roundTo_exp f neg den hn]
    exact quantumExp_le f num den hmin h

theorem fmtMinExp_nonpos (f : FloatFmt) : fmtMinExp f ≤ 0 := by cases f <;> decide

theorem fmtPrec_pos (f : FloatFmt) : 1 ≤ fmtPrec f := by cases f <;> decide

theorem log2_mono {m n : Nat} (h : m ≤ n) : Nat.log2 m ≤ Nat.log2 n := by
  simpa only [Nat.log2_eq_log_two] using Nat.log_mono_right h

/-- The last place of a literal at most 1 is no whole number above 1. -/
theorem litOf_exp_nonpos (f : FloatFmt) {c : ScaleConst} (hle : c.num ≤ c.den) :
    (litOf f c).exp ≤ 0 := by
  refine roundTo_exp_le false le_rfl (fmtMinExp_nonpos f) ?_
  have hlog := log2_mono hle
  have hprec := fmtPrec_pos f
  omega

theorem convOf_mant_le (r : Word16) : (convOf r).mant ≤ 2 ^ 15 := by
  have hlo := r.le_toInt
  have hhi := r.toInt_lt
  simp only [convOf]
  omega

/-- The operand's magnitude, at most `2 ^ 15`, and the size of the literal's significand bound the product's last place. -/
theorem fmul_exp_le (f : FloatFmt) {c : ScaleConst} (hd : 0 < c.den) (hle : c.num ≤ c.den)
    (r : Word16) : (fmul f (convOf r) (litOf f c)).exp ≤ 16 := by
  have hexp : (convOf r).exp + (litOf f c).exp ≤ 0 := by
    simpa [convOf] using litOf_exp_nonpos f hle
  have hmant : (convOf r).mant * (litOf f c).mant ≤ 2 ^ (15 + fmtPrec f) := by
    rw [pow_add]
    exact Nat.mul_le_mul (convOf_mant_le r) (roundTo_mant_le f false c.num hd)
  have hlog := log2_mono hmant
  rw [Nat.log2_two_pow] at hlog
  refine roundTo_exp_le _ (by decide) ((fmtMinExp_nonpos f).trans (by decide)) ?_
  rw [Int.toNat_of_nonpos hexp, pow_zero, mul_one]
  omega

theorem fmul_mant_le (f : FloatFmt) (x y : FloatNum) : (fmul f x y).mant ≤ 2 ^ fmtPrec f :=
  roundTo_mant_le f _ _ (Nat.two_pow_pos _)

/-! ### The exponent field -/

/-- Both formats have room above a last place of `2 ^ 16`, the carry of a rounding counted. -/
theorem exponents_below_infinity (f : FloatFmt) :
    (16 - fmtMinExp f).toNat + 2 < 2 ^ fmtExpBits f - 1 := by cases f <;> decide

theorem two_pow_fmtPrec (f : FloatFmt) : 2 ^ fmtPrec f = 2 * 2 ^ (fmtPrec f - 1) := by
  cases f <;> rfl

theorem exponent_and_fraction_lt_infinity {f : FloatFmt} {x : FloatNum}
    (hm : x.mant ≤ 2 ^ fmtPrec f) (he : x.exp ≤ 16) :
    (x.exp - fmtMinExp f).toNat * 2 ^ (fmtPrec f - 1) + x.mant <
      (2 ^ fmtExpBits f - 1) * 2 ^ (fmtPrec f - 1) := by
  have hexp : (x.exp - fmtMinExp f).toNat ≤ (16 - fmtMinExp f).toNat := by omega
  calc (x.exp - fmtMinExp f).toNat * 2 ^ (fmtPrec f - 1) + x.mant
    _ ≤ (16 - fmtMinExp f).toNat * 2 ^ (fmtPrec f - 1) + 2 * 2 ^ (fmtPrec f - 1) :=
      Nat.add_le_add (Nat.mul_le_mul_right _ hexp) (hm.trans_eq (two_pow_fmtPrec f))
    _ = ((16 - fmtMinExp f).toNat + 2) * 2 ^ (fmtPrec f - 1) := (Nat.add_mul _ _ _).symm
    _ < (2 ^ fmtExpBits f - 1) * 2 ^ (fmtPrec f - 1) :=
      Nat.mul_lt_mul_of_pos_right (exponents_below_infinity f) (Nat.two_pow_pos _)

/-- The fields are a sign bit above a pattern less than that of an infinity. -/
theorem fieldsOf_below_infinity {f : FloatFmt} {x : FloatNum} (hm : x.mant ≤ 2 ^ fmtPrec f)
    (he : x.exp ≤ 16) :
    ∃ b, b < (2 ^ fmtExpBits f - 1) * 2 ^ (fmtPrec f - 1) ∧
      fieldsOf f x = (if x.neg then 2 ^ (fmtExpBits f + fmtPrec f - 1) else 0) + b := by
  have hlt := exponent_and_fraction_lt_infinity hm he
  refine ⟨_, min_lt_iff.2 (.inl ?_), rfl⟩
  split
  · exact (Nat.zero_le _).trans_lt hlt
  · exact hlt

/-- The exponent field of a pattern with a sign bit, `e` exponent bits and `p` fraction bits. -/
theorem extractLsb'_exponent_toNat (e p : Nat) (neg : Bool) {b : Nat} (hb : b < 2 ^ e * 2 ^ p) :
    ((BitVec.ofNat (e + p + 1) ((if neg then 2 ^ (e + p) else 0) + b)).extractLsb' p e).toNat =
      b / 2 ^ p := by
  have hquot : b / 2 ^ p < 2 ^ e := Nat.div_lt_of_lt_mul (by rwa [Nat.mul_comm])
  have hfit : (if neg then 2 ^ (e + p) else 0) + b < 2 ^ (e + p + 1) := by
    rw [pow_succ, pow_add]
    split <;> omega
  rw [BitVec.extractLsb'_toNat, BitVec.toNat_ofNat, Nat.shiftRight_eq_div_pow,
    Nat.mod_eq_of_lt hfit]
  split
  · rw [pow_add, Nat.mul_comm, Nat.mul_add_div (Nat.two_pow_pos p), Nat.add_mod_left,
      Nat.mod_eq_of_lt hquot]
  · rw [Nat.zero_add, Nat.mod_eq_of_lt hquot]

theorem extractLsb'_exponent_ne_ones (e p : Nat) (neg : Bool) {b : Nat}
    (hb : b < (2 ^ e - 1) * 2 ^ p) :
    (BitVec.ofNat (e + p + 1) ((if neg then 2 ^ (e + p) else 0) + b)).extractLsb' p e ≠
      BitVec.allOnes e := by
  intro hones
  have hfield := extractLsb'_exponent_toNat e p neg
    (hb.trans_le (Nat.mul_le_mul_right _ (Nat.sub_le _ _)))
  rw [hones, BitVec.toNat_allOnes] at hfield
  exact absurd (Nat.div_lt_of_lt_mul (by rwa [Nat.mul_comm])) hfield.not_gt

theorem encodeFloat_isFinite {f : FloatFmt} {x : FloatNum} (hm : x.mant ≤ 2 ^ fmtPrec f)
    (he : x.exp ≤ 16) : (encodeFloat f x).isFinite = true := by
  obtain ⟨b, hb, hfields⟩ := fieldsOf_below_infinity hm he
  cases f with
  | binary32 =>
    rw [encodeFloat, hfields]
    exact bne_iff_ne.2 (extractLsb'_exponent_ne_ones 8 23 x.neg hb)
  | binary64 =>
    rw [encodeFloat, hfields]
    exact bne_iff_ne.2 (extractLsb'_exponent_ne_ones 11 52 x.neg hb)

theorem scaleBy_isFinite (f : FloatFmt) {c : ScaleConst} (hd : 0 < c.den) (hle : c.num ≤ c.den)
    (r : Word16) : (scaleBy f c r).isFinite = true :=
  encodeFloat_isFinite (fmul_mant_le f _ _) (fmul_exp_le f hd hle r)

/-- No constant of R207 is above 1. -/
theorem scaleConsts_le_one : ∀ c ∈ scaleConsts, 0 < c.den ∧ c.num ≤ c.den := by decide

/-- Settles O59: the product of an `s16` by a constant at most 1 stays below the exponent of an infinity. -/
theorem scaleResultsAreFinite : Obligations.ScaleResultsAreFinite := by
  intro f c hc
  obtain ⟨hd, hle⟩ := scaleConsts_le_one c hc
  refine ⟨scaleBy_isFinite f hd hle, ?_⟩
  rw [scaleBy_zero]
  cases f <;> rfl

end Sys2Proof.Machine
end

section
/-! No step stops the machine (spec/60_exceptions.md R221): reset and the idle block always have a next state, and
the invariant enables whatever the sequencer gets to. -/

namespace Sys2Proof.Machine

theorem step_reset {s : State} (hr : s.hostNow.rst = true) : step s = .next s.tick.doReset :=
  if_pos hr

theorem step_nothing_presented {s : State} (hr : s.hostNow.rst = false) (hb : s.busy = false)
    (hc : s.presented = none) : step s = .next s.tick := by
  simp [step, hr, hb, hc]

/-- With a command in flight the sequencer is at an enabled micro-op or at the end (R114, R115). -/
theorem State.Inv.sequencerStep_total {s : State} (h : s.Inv) (hb : s.busy = true) :
    ∃ t, sequencerStep s = .next t := by
  cases hm : s.program[s.ph]? with
  | some m =>
    rw [sequencerStep_of_microOp hm]
    exact microOp_next_of_enabled (h.seld_eq_needsPhase hb hm)
  | none =>
    obtain ⟨-, hbusy, -⟩ := h
    obtain ⟨hle, -⟩ := hbusy hb
    exact ⟨_, sequencerStep_of_end (hle.antisymm (List.getElem?_eq_none_iff.1 hm))⟩

/-- Settles O10: the cases of `step`; a fault needs a micro-op that is not enabled or a `PH` past the end, and the
invariant excludes both. -/
theorem stepNeverStops : Obligations.StepNeverStops := by
  intro s hinv
  cases hr : s.hostNow.rst with
  | true => exact ⟨_, step_reset hr⟩
  | false =>
    cases hb : s.busy with
    | true =>
      rw [step_busy hr hb]
      exact State.Inv.sequencerStep_total (s := s.tick) hinv hb
    | false =>
      cases hc : s.presented with
      | some c =>
        rw [step_idle hr hb hc]
        exact startCommand_total c (s := s.tick) hb
      | none => exact ⟨_, step_nothing_presented hr hb hc⟩

end Sys2Proof.Machine
end

section
/-! A bus command that the transport does not answer (spec/40_sequencer.md R121, spec/60_exceptions.md R229). -/

namespace Sys2Proof.Machine

/-- Every micro-program selects the bus and then sends a byte (R112). -/
theorem prog_head (op : BusOp) (a : Addr) (d : Word16) :
    ∃ o ms, prog op a d = .sel :: .tx o :: ms := by
  cases op <;> exact ⟨_, _, rfl⟩

theorem runToEnd_of_step {n : Nat} {s t : State} (hb : s.busy = true) (hw : s.waiting = false)
    (h : sequencerStep s = .next t) : runToEnd (n + 1) s = runToEnd n t := by
  simp [runToEnd, hb, hw, h]

/-- A command ends where it waits for an answer, still in flight (R121). -/
theorem runToEnd_of_waiting {s : State} (n : Nat) (hw : s.waiting = true) :
    runToEnd n s = .next s := by
  cases n with
  | zero => rfl
  | succ n => simp [runToEnd, hw]

/-- The state in which a bus command, just accepted on a deselected bus, waits for its first answer: the bus is
selected and nothing sent (R113, R114). -/
def stateAtFirstTransfer (op : BusOp) (c : Instr) (a : Addr) (d : Word16) (s : State) : State :=
  let u := accept op c a d s
  (((u.setBus u.bus.select).setSeld true).advance).emit .sel

/-- A bus command runs up to a first transfer that the transport, once selected, does not answer. -/
theorem busCommand_unanswered {op : BusOp} {c : Instr} {a : Addr} {d : Word16} {s : State}
    (hq : s.Quiescent) (hn : ∀ o, (s.bus.select.transfer o).1 = none) :
    busCommand op c a d s = .next (stateAtFirstTransfer op c a d s) := by
  obtain ⟨hb, hs⟩ := hq
  obtain ⟨o, ms, hprog⟩ := prog_head op a d
  have hsel : (accept op c a d s).program[(accept op c a d s).ph]? = some .sel := by
    rw [accept_program, hprog, accept_ph, List.getElem?_cons_zero]
  have hstep : sequencerStep (accept op c a d s) = .next (stateAtFirstTransfer op c a d s) :=
    (sequencerStep_of_microOp hsel).trans (microOp_sel hs)
  have htx : (stateAtFirstTransfer op c a d s).program[(stateAtFirstTransfer op c a d s).ph]? =
      some (.tx o) :=
    congrArg (·[1]?) hprog
  have hwait : (stateAtFirstTransfer op c a d s).waiting = true :=
    (State.waiting_of_microOp htx).trans (waitsOn_iff.2 ⟨o, .inl rfl, rfl, hn o⟩)
  rw [busCommand_idle hb, maxSteps, runToEnd_of_step rfl (State.waiting_of_microOp hsel) hstep,
    runToEnd_of_waiting _ hwait]

/-- Settles O31: the command stands at its first transfer, which is not attempted. -/
theorem unansweredCommandStaysInFlight : Obligations.UnansweredCommandStaysInFlight := by
  intro s c xs n hq hbus hne
  obtain ⟨op, a, d, hl⟩ := exists_latches hne s.a s.d
  have hselect : s.bus.select = s.bus := by rw [hbus]; rfl
  have hn : ∀ o, (s.bus.select.transfer o).1 = none := fun o => by rw [hselect, hbus]; rfl
  exact ⟨_, hl.exec_eq.trans (busCommand_unanswered hq hn), rfl, rfl, rfl, rfl, hselect,
    List.append_assoc s.trace [.cmd c] [.sel]⟩

end Sys2Proof.Machine
end

section
/-! Reset and the idle block (spec/70_reset_and_hazards.md R250, R251, R253). -/

namespace Sys2Proof.Machine

/-! ### Reset -/

/-- What a reset adds to the trace, by the value of `SELD` (R250). -/
theorem append_releaseBus (es : List Event) (b : Bool) :
    es ++ releaseBus b = if b then es ++ [.desel] else es := by
  cases b with
  | true => rfl
  | false => exact List.append_nil es

/-- Settles O3: the step is `State.doReset`, which reads nothing of what was going on but `SELD`. -/
theorem resetStepAbandonsCommand : Obligations.ResetStepAbandonsCommand := by
  intro s hr
  exact ⟨_, step_reset hr, rfl, rfl, rfl, rfl, rfl, rfl, rfl, rfl, append_releaseBus s.trace s.seld⟩

/-! ### The first `Sel` of a command -/

theorem State.presented_of_cmd {s : State} {p : Port} {c : Instr} (hp : s.hostNow.cmd = some p)
    (h : decodeCommand s.cfg.hasScl p = .ok c) : s.presented = some c := by
  simp only [State.presented, hp, h, Except.toOption]

/-- The step after acceptance on a deselected bus selects it (R112, R114). -/
theorem step_accept {op : BusOp} {c : Instr} {a : Addr} {d : Word16} {s : State}
    (hr : s.hostNow.rst = false) (hs : s.seld = false) :
    step (accept op c a d s) = .next (stateAtFirstTransfer op c a d s.tick) := by
  obtain ⟨o, ms, hprog⟩ := prog_head op a d
  have hsel : (accept op c a d s).program[(accept op c a d s).ph]? = some .sel := by
    rw [accept_program, hprog, accept_ph, List.getElem?_cons_zero]
  exact (step_of_microOp (s := accept op c a d s) rfl hr hsel).trans
    (microOp_sel (s := (accept op c a d s).tick) hs)

/-- From a quiescent block, whatever its trace, a presented bus command is accepted and selects the bus, in two
steps that record nothing else (R113, R114). -/
theorem run_accept_select {s : State} {c : Instr} (hq : s.Quiescent) (hc : s.presented = some c)
    (hr : s.NoReset 2) (hne : commandProgram c ≠ []) :
    ∃ t, Host.Core.run core 2 s = .next t ∧ t.trace = s.trace ++ [.cmd c, .sel] := by
  obtain ⟨op, a, d, hl⟩ := exists_latches hne s.a s.d
  obtain ⟨hb, hs⟩ := hq
  have haccept : step s = .next (accept op c a d s.tick) := hl.step_eq (State.NoReset_now hr) hb hc
  have hselect : step (accept op c a d s.tick) = .next (stateAtFirstTransfer op c a d s.tick.tick) :=
    step_accept (State.NoReset_now (State.NoReset_tick hr)) hs
  exact ⟨_, (run_succ haccept).trans (run_succ hselect), List.append_assoc s.trace [.cmd c] [.sel]⟩

/-- Settles O4: the reset leaves a quiescent block, from which the next two steps are `run_accept_select`. -/
theorem firstSelectAfterResetOwesNoStall : Obligations.FirstSelectAfterResetOwesNoStall := by
  intro s x y p h c hhost hdec hne
  have hrst : s.hostNow.rst = true := by rw [State.hostNow, hhost]; rfl
  have hhost' : s.tick.doReset.host = ⟨false, some p⟩ :: ⟨false, y⟩ :: h := congrArg List.tail hhost
  have hnow : s.tick.doReset.hostNow.cmd = some p := by rw [State.hostNow, hhost']; rfl
  have hno : s.tick.doReset.NoReset 2 := by rw [State.NoReset, hhost']; simp
  obtain ⟨t, hrun, htrace⟩ :=
    run_accept_select ⟨rfl, rfl⟩ (State.presented_of_cmd hnow hdec) hno hne
  refine ⟨t, (run_succ (step_reset hrst)).trans hrun, ?_⟩
  rw [htrace, ← append_releaseBus]
  rfl

/-! ### The idle block -/

/-- A quiet host presents no command (R38). -/
theorem State.presented_of_quiet {s : State} (h : s.hostNow = HostIn.quiet) : s.presented = none := by
  rw [State.presented, h]
  rfl

/-- Settles O5: a quiet host neither resets the block nor presents a command. -/
theorem idleBlockStaysIdle : Obligations.IdleBlockStaysIdle := fun _ hb hq =>
  step_nothing_presented (congrArg HostIn.rst hq) hb (State.presented_of_quiet hq)

end Sys2Proof.Machine
end
